-- ==== Sys2Proof/Word.lean ====
section
/-!
DEFINITION. The words of the machine: bytes, 16-bit words and register numbers (00_scope R6, R7;
10_state R22). Every quantity is unsigned; nothing in the instruction set is signed (R7).
-/

namespace Sys2Proof

/-- An 8-bit value: a register, a timer, a byte of memory. -/
abbrev Byte := BitVec 8

/-- A 16-bit value: the program counter, the index register, a stack entry, an instruction word. -/
abbrev Word := BitVec 16

/-- A register number, 0x0 to 0xF (10_state R22). -/
abbrev Reg := Fin 16

/-- Register 0xF: general register and implicit flag (10_state R23). -/
abbrev regF : Reg := 15

/-- Register 0: the implicit addend of BNNN (10_state R22). -/
abbrev reg0 : Reg := 0

/-- A truth value as the number 0 or 1, as the rules write it into the flag register (10_state R23). -/
def bitByte (b : Bool) : Byte := if b then 1 else 0

@[simp] theorem bitByte_true : bitByte true = 1 := rfl
@[simp] theorem bitByte_false : bitByte false = 0 := rfl

end Sys2Proof
end

