-- ==== Sys2Proof/Syntax.lean ====
section
/-!
DEFINITION. The instructions: one constructor per row of spec/opcode_table.json, in the order of
30_encoding R84, and the six formats of R82. Operands are the decoded fields of R81: register numbers
X and Y, an immediate byte NN, a 12-bit address NNN, a row count N.
-/

namespace Sys2Proof

/-- The formats of 30_encoding R82. -/
inductive Format where
  /-- no operand -/
  | Z
  /-- a 12-bit address -/
  | A
  /-- a register and an immediate byte -/
  | RI
  /-- two registers -/
  | RR
  /-- two registers and an immediate nibble -/
  | RRN
  /-- one register -/
  | R
deriving DecidableEq, Repr

/-- The 34 instructions of 30_encoding R84. -/
inductive Instr where
  /-- 00E0, `CLS` (R190) -/
  | cls
  /-- 00EE, `RET` (R120) -/
  | ret
  /-- 1NNN, `JP nnn` (R121) -/
  | jp (nnn : BitVec 12)
  /-- 2NNN, `CALL nnn` (R122) -/
  | call (nnn : BitVec 12)
  /-- 3XNN, `SE Vx, nn` (R123) -/
  | seImm (x : Reg) (nn : Byte)
  /-- 4XNN, `SNE Vx, nn` (R124) -/
  | sneImm (x : Reg) (nn : Byte)
  /-- 5XY0, `SE Vx, Vy` (R125) -/
  | seReg (x y : Reg)
  /-- 9XY0, `SNE Vx, Vy` (R126) -/
  | sneReg (x y : Reg)
  /-- 6XNN, `LD Vx, nn` (R140) -/
  | ldImm (x : Reg) (nn : Byte)
  /-- 7XNN, `ADD Vx, nn` (R141) -/
  | addImm (x : Reg) (nn : Byte)
  /-- 8XY0, `LD Vx, Vy` (R142) -/
  | ldReg (x y : Reg)
  /-- 8XY1, `OR Vx, Vy` (R143) -/
  | orReg (x y : Reg)
  /-- 8XY2, `AND Vx, Vy` (R144) -/
  | andReg (x y : Reg)
  /-- 8XY3, `XOR Vx, Vy` (R145) -/
  | xorReg (x y : Reg)
  /-- 8XY4, `ADD Vx, Vy` (R146) -/
  | addReg (x y : Reg)
  /-- 8XY5, `SUB Vx, Vy` (R147) -/
  | sub (x y : Reg)
  /-- 8XY6, `SHR Vx, Vy` (R148) -/
  | shr (x y : Reg)
  /-- 8XY7, `SUBN Vx, Vy` (R149) -/
  | subn (x y : Reg)
  /-- 8XYE, `SHL Vx, Vy` (R150) -/
  | shl (x y : Reg)
  /-- ANNN, `LD I, nnn` (R170) -/
  | ldI (nnn : BitVec 12)
  /-- BNNN, `JP V0, nnn` (R127) -/
  | jpV0 (nnn : BitVec 12)
  /-- CXNN, `RND Vx, nn` (R151) -/
  | rnd (x : Reg) (nn : Byte)
  /-- DXYN, `DRW Vx, Vy, n` (R191) -/
  | drw (x y : Reg) (n : BitVec 4)
  /-- EX9E, `SKP Vx` (R210) -/
  | skp (x : Reg)
  /-- EXA1, `SKNP Vx` (R211) -/
  | sknp (x : Reg)
  /-- FX07, `LD Vx, DT` (R213) -/
  | ldVxDt (x : Reg)
  /-- FX15, `LD DT, Vx` (R214) -/
  | ldDtVx (x : Reg)
  /-- FX18, `LD ST, Vx` (R215) -/
  | ldStVx (x : Reg)
  /-- FX1E, `ADD I, Vx` (R171) -/
  | addI (x : Reg)
  /-- FX0A, `LD Vx, K` (R212) -/
  | ldVxK (x : Reg)
  /-- FX29, `LD F, Vx` (R172) -/
  | ldF (x : Reg)
  /-- FX33, `LD B, Vx` (R173) -/
  | ldB (x : Reg)
  /-- FX55, `LD [I], Vx` (R174) -/
  | stRegs (x : Reg)
  /-- FX65, `LD Vx, [I]` (R175) -/
  | ldRegs (x : Reg)
deriving DecidableEq, Repr

/-- The format of each instruction (30_encoding R82). -/
def Instr.format : Instr → Format
  | .cls | .ret => .Z
  | .jp _ | .call _ | .ldI _ | .jpV0 _ => .A
  | .seImm _ _ | .sneImm _ _ | .ldImm _ _ | .addImm _ _ | .rnd _ _ => .RI
  | .seReg _ _ | .sneReg _ _ | .ldReg _ _ | .orReg _ _ | .andReg _ _ | .xorReg _ _ | .addReg _ _
  | .sub _ _ | .shr _ _ | .subn _ _ | .shl _ _ => .RR
  | .drw _ _ _ => .RRN
  | .skp _ | .sknp _ | .ldVxDt _ | .ldDtVx _ | .ldStVx _ | .addI _ | .ldVxK _ | .ldF _ | .ldB _
  | .stRegs _ | .ldRegs _ => .R

/-- An instruction's operands as numbers, in the order of the assembler syntax (30_encoding R88). -/
def Instr.operands : Instr → List Nat
  | .cls | .ret => []
  | .jp a | .call a | .ldI a | .jpV0 a => [a.toNat]
  | .seImm x k | .sneImm x k | .ldImm x k | .addImm x k | .rnd x k => [x.val, k.toNat]
  | .seReg x y | .sneReg x y | .ldReg x y | .orReg x y | .andReg x y | .xorReg x y | .addReg x y
  | .sub x y | .shr x y | .subn x y | .shl x y => [x.val, y.val]
  | .drw x y n => [x.val, y.val, n.toNat]
  | .skp x | .sknp x | .ldVxDt x | .ldDtVx x | .ldStVx x | .addI x | .ldVxK x | .ldF x | .ldB x
  | .stRegs x | .ldRegs x => [x.val]

end Sys2Proof
end

