-- ==== Sys2Proof/WellFormed.lean ====
section
/-!
DEFINITION. When operands fit an instruction's fields (30_encoding R81 to R83): as many operands as the
format has fields, each within its field's width. The types of `Instr` already keep every operand in
its field, so every instruction is well formed (`wellFormed_all`, log 27); the check itself, on numbers
as an assembler reads them, is `Format.accepts`.
-/

namespace Sys2Proof

/-- The widths in bits of a format's operand fields (30_encoding R81, R82). -/
def Format.widths : Format → List Nat
  | .Z => []
  | .A => [12]
  | .RI => [4, 8]
  | .RR => [4, 4]
  | .RRN => [4, 4, 4]
  | .R => [4]

/-- Do the numbers fit the fields, one each, none wider than its field? -/
def fitFields : List Nat → List Nat → Bool
  | [], [] => true
  | w :: ws, v :: vs => decide (v < 2 ^ w) && fitFields ws vs
  | _, _ => false

/-- Operands that a format accepts (30_encoding R83). -/
def Format.accepts (f : Format) (operands : List Nat) : Bool := fitFields f.widths operands

/-- A well-formed instruction: its operands fit its format's fields. -/
def WellFormed (i : Instr) : Bool := i.format.accepts i.operands

theorem fitFields_cons {w v : Nat} {ws vs : List Nat} (h : v < 2 ^ w) (hs : fitFields ws vs = true) :
    fitFields (w :: ws) (v :: vs) = true := by
  simp [fitFields, h, hs]

/-- Every term of `Instr` is well formed: the operand types are the fields. -/
theorem wellFormed_all (i : Instr) : WellFormed i = true := by
  cases i <;>
    simp only [WellFormed, Format.accepts, Instr.format, Instr.operands, Format.widths] <;>
    repeat' first
      | rfl
      | exact fitFields_cons (BitVec.isLt _) rfl
      | refine fitFields_cons (Fin.isLt _) ?_

end Sys2Proof
end

