-- ==== Sys2Proof/Decode.lean ====
section
/-!
DEFINITION. Decoding and encoding (30_encoding R80 to R86, R90; 40_step_cycle R104). `decodeWord` is the
procedure of R104; `opcodeTable` is the table of R84 as data; `encode` is R90. A word that matches no
row is rejected by its class of R86 (it is a no-op of the machine, never an error).
-/

namespace Sys2Proof

/-- The six classes of unrecognized words (30_encoding R86). -/
inductive Unrecognized where
  /-- 0NNN with NNN neither 0x0E0 nor 0x0EE -/
  | zero
  /-- 5XYN with N ≠ 0 -/
  | five
  /-- 8XYN with N in 8, 9, A, B, C, D, F -/
  | eight
  /-- 9XYN with N ≠ 0 -/
  | nine
  /-- EXNN with NN neither 0x9E nor 0xA1 -/
  | e
  /-- FXNN with NN not one of the nine function bytes -/
  | f
deriving DecidableEq, Repr

/-- Why bytes are no instruction. -/
inductive DecodeError where
  /-- fewer than the two bytes every instruction has (R80) -/
  | truncated
  /-- the word matches no row of R84 -/
  | unrecognized (c : Unrecognized)
deriving DecidableEq, Repr

/-- `T = op[15:12]` (R81). -/
def fieldT (op : Word) : BitVec 4 := op.extractLsb' 12 4

/-- `X = op[11:8]` (R81). -/
def fieldX (op : Word) : Reg := (op.extractLsb' 8 4).toFin

/-- `Y = op[7:4]` (R81). -/
def fieldY (op : Word) : Reg := (op.extractLsb' 4 4).toFin

/-- `N = op[3:0]` (R81). -/
def fieldN (op : Word) : BitVec 4 := op.extractLsb' 0 4

/-- `NN = op[7:0]` (R81). -/
def fieldNN (op : Word) : Byte := op.extractLsb' 0 8

/-- `NNN = op[11:0]` (R81). -/
def fieldNNN (op : Word) : BitVec 12 := op.extractLsb' 0 12

/-- Top nibble 0: all 16 bits are compared (R85). -/
def decode0 (op : Word) : Except DecodeError Instr :=
  if op = 0x00E0 then .ok .cls
  else if op = 0x00EE then .ok .ret
  else .error (.unrecognized .zero)

/-- Top nibble 8: the function is N (R84). -/
def decode8 (x y : Reg) (n : BitVec 4) : Except DecodeError Instr :=
  match n with
  | 0x0 => .ok (.ldReg x y)
  | 0x1 => .ok (.orReg x y)
  | 0x2 => .ok (.andReg x y)
  | 0x3 => .ok (.xorReg x y)
  | 0x4 => .ok (.addReg x y)
  | 0x5 => .ok (.sub x y)
  | 0x6 => .ok (.shr x y)
  | 0x7 => .ok (.subn x y)
  | 0xE => .ok (.shl x y)
  | _ => .error (.unrecognized .eight)

/-- Top nibble E: the function is NN (R84). -/
def decodeE (x : Reg) (nn : Byte) : Except DecodeError Instr :=
  match nn with
  | 0x9E => .ok (.skp x)
  | 0xA1 => .ok (.sknp x)
  | _ => .error (.unrecognized .e)

/-- Top nibble F: the function is NN (R84). -/
def decodeF (x : Reg) (nn : Byte) : Except DecodeError Instr :=
  match nn with
  | 0x07 => .ok (.ldVxDt x)
  | 0x0A => .ok (.ldVxK x)
  | 0x15 => .ok (.ldDtVx x)
  | 0x18 => .ok (.ldStVx x)
  | 0x1E => .ok (.addI x)
  | 0x29 => .ok (.ldF x)
  | 0x33 => .ok (.ldB x)
  | 0x55 => .ok (.stRegs x)
  | 0x65 => .ok (.ldRegs x)
  | _ => .error (.unrecognized .f)

/-- The decode of one word: the procedure of 40_step_cycle R104 over the patterns of 30_encoding R84,
each matched on every digit it prints (R85). A pure function of the 16 bits. -/
def decodeWord (op : Word) : Except DecodeError Instr :=
  match fieldT op with
  | 0x0 => decode0 op
  | 0x1 => .ok (.jp (fieldNNN op))
  | 0x2 => .ok (.call (fieldNNN op))
  | 0x3 => .ok (.seImm (fieldX op) (fieldNN op))
  | 0x4 => .ok (.sneImm (fieldX op) (fieldNN op))
  | 0x5 => if fieldN op = 0 then .ok (.seReg (fieldX op) (fieldY op)) else .error (.unrecognized .five)
  | 0x6 => .ok (.ldImm (fieldX op) (fieldNN op))
  | 0x7 => .ok (.addImm (fieldX op) (fieldNN op))
  | 0x8 => decode8 (fieldX op) (fieldY op) (fieldN op)
  | 0x9 => if fieldN op = 0 then .ok (.sneReg (fieldX op) (fieldY op)) else .error (.unrecognized .nine)
  | 0xA => .ok (.ldI (fieldNNN op))
  | 0xB => .ok (.jpV0 (fieldNNN op))
  | 0xC => .ok (.rnd (fieldX op) (fieldNN op))
  | 0xD => .ok (.drw (fieldX op) (fieldY op) (fieldN op))
  | 0xE => decodeE (fieldX op) (fieldNN op)
  | _ => decodeF (fieldX op) (fieldNN op)

/-- The word of two bytes, the high byte first (20_memory R52). -/
def wordOfBytes (hi lo : Byte) : Word := hi ++ lo

/-- The two bytes of a word as memory holds them, the high byte at the lower address (R80, R90). -/
def bytesOfWord (op : Word) : List Byte := [op.extractLsb' 8 8, op.extractLsb' 0 8]

/-- Decode the instruction at the front of a list of bytes and give back the rest. -/
def decode : List Byte → Except DecodeError (Instr × List Byte)
  | hi :: lo :: rest => (decodeWord (wordOfBytes hi lo)).map (fun i => (i, rest))
  | _ => .error .truncated

/-- A register number as a 4-bit field (R81). -/
def regField (r : Reg) : BitVec 4 := BitVec.ofFin r

/-- Address view: `(T << 12) | NNN` (R90). -/
def wordA (t : BitVec 4) (nnn : BitVec 12) : Word := t ++ nnn

/-- Byte view: `(T << 12) | (X << 8) | NN` (R90). -/
def wordRI (t : BitVec 4) (x : Reg) (nn : Byte) : Word := t ++ regField x ++ nn

/-- Nibble view: `(T << 12) | (X << 8) | (Y << 4) | N` (R90). -/
def wordRRN (t : BitVec 4) (x y : Reg) (n : BitVec 4) : Word := t ++ regField x ++ regField y ++ n

/-- The word of an instruction (30_encoding R84, R90). -/
def encode : Instr → Word
  | .cls => 0x00E0
  | .ret => 0x00EE
  | .jp a => wordA 0x1 a
  | .call a => wordA 0x2 a
  | .seImm x k => wordRI 0x3 x k
  | .sneImm x k => wordRI 0x4 x k
  | .seReg x y => wordRRN 0x5 x y 0x0
  | .sneReg x y => wordRRN 0x9 x y 0x0
  | .ldImm x k => wordRI 0x6 x k
  | .addImm x k => wordRI 0x7 x k
  | .ldReg x y => wordRRN 0x8 x y 0x0
  | .orReg x y => wordRRN 0x8 x y 0x1
  | .andReg x y => wordRRN 0x8 x y 0x2
  | .xorReg x y => wordRRN 0x8 x y 0x3
  | .addReg x y => wordRRN 0x8 x y 0x4
  | .sub x y => wordRRN 0x8 x y 0x5
  | .shr x y => wordRRN 0x8 x y 0x6
  | .subn x y => wordRRN 0x8 x y 0x7
  | .shl x y => wordRRN 0x8 x y 0xE
  | .ldI a => wordA 0xA a
  | .jpV0 a => wordA 0xB a
  | .rnd x k => wordRI 0xC x k
  | .drw x y n => wordRRN 0xD x y n
  | .skp x => wordRI 0xE x 0x9E
  | .sknp x => wordRI 0xE x 0xA1
  | .ldVxDt x => wordRI 0xF x 0x07
  | .ldDtVx x => wordRI 0xF x 0x15
  | .ldStVx x => wordRI 0xF x 0x18
  | .addI x => wordRI 0xF x 0x1E
  | .ldVxK x => wordRI 0xF x 0x0A
  | .ldF x => wordRI 0xF x 0x29
  | .ldB x => wordRI 0xF x 0x33
  | .stRegs x => wordRI 0xF x 0x55
  | .ldRegs x => wordRI 0xF x 0x65

/-- The bytes of an instruction as memory holds them. -/
def encodeBytes (i : Instr) : List Byte := bytesOfWord (encode i)

/-- A row of the opcode map: selected when `op & mask == value` (30_encoding R84). -/
structure OpcodeRow where
  pattern : String
  mnemonic : String
  mask : Word
  value : Word
deriving DecidableEq, Repr

/-- The row of 30_encoding R84 that an instruction belongs to. -/
def rowOf : Instr → OpcodeRow
  | .cls => ⟨"00E0", "CLS", 0xFFFF, 0x00E0⟩
  | .ret => ⟨"00EE", "RET", 0xFFFF, 0x00EE⟩
  | .jp _ => ⟨"1NNN", "JP", 0xF000, 0x1000⟩
  | .call _ => ⟨"2NNN", "CALL", 0xF000, 0x2000⟩
  | .seImm _ _ => ⟨"3XNN", "SE_IMM", 0xF000, 0x3000⟩
  | .sneImm _ _ => ⟨"4XNN", "SNE_IMM", 0xF000, 0x4000⟩
  | .seReg _ _ => ⟨"5XY0", "SE_REG", 0xF00F, 0x5000⟩
  | .sneReg _ _ => ⟨"9XY0", "SNE_REG", 0xF00F, 0x9000⟩
  | .ldImm _ _ => ⟨"6XNN", "LD_IMM", 0xF000, 0x6000⟩
  | .addImm _ _ => ⟨"7XNN", "ADD_IMM", 0xF000, 0x7000⟩
  | .ldReg _ _ => ⟨"8XY0", "LD_REG", 0xF00F, 0x8000⟩
  | .orReg _ _ => ⟨"8XY1", "OR", 0xF00F, 0x8001⟩
  | .andReg _ _ => ⟨"8XY2", "AND", 0xF00F, 0x8002⟩
  | .xorReg _ _ => ⟨"8XY3", "XOR", 0xF00F, 0x8003⟩
  | .addReg _ _ => ⟨"8XY4", "ADD_REG", 0xF00F, 0x8004⟩
  | .sub _ _ => ⟨"8XY5", "SUB", 0xF00F, 0x8005⟩
  | .shr _ _ => ⟨"8XY6", "SHR", 0xF00F, 0x8006⟩
  | .subn _ _ => ⟨"8XY7", "SUBN", 0xF00F, 0x8007⟩
  | .shl _ _ => ⟨"8XYE", "SHL", 0xF00F, 0x800E⟩
  | .ldI _ => ⟨"ANNN", "LD_I", 0xF000, 0xA000⟩
  | .jpV0 _ => ⟨"BNNN", "JP_V0", 0xF000, 0xB000⟩
  | .rnd _ _ => ⟨"CXNN", "RND", 0xF000, 0xC000⟩
  | .drw _ _ _ => ⟨"DXYN", "DRW", 0xF000, 0xD000⟩
  | .skp _ => ⟨"EX9E", "SKP", 0xF0FF, 0xE09E⟩
  | .sknp _ => ⟨"EXA1", "SKNP", 0xF0FF, 0xE0A1⟩
  | .ldVxDt _ => ⟨"FX07", "LD_VX_DT", 0xF0FF, 0xF007⟩
  | .ldDtVx _ => ⟨"FX15", "LD_DT_VX", 0xF0FF, 0xF015⟩
  | .ldStVx _ => ⟨"FX18", "LD_ST_VX", 0xF0FF, 0xF018⟩
  | .addI _ => ⟨"FX1E", "ADD_I", 0xF0FF, 0xF01E⟩
  | .ldVxK _ => ⟨"FX0A", "LD_VX_K", 0xF0FF, 0xF00A⟩
  | .ldF _ => ⟨"FX29", "LD_F", 0xF0FF, 0xF029⟩
  | .ldB _ => ⟨"FX33", "LD_B", 0xF0FF, 0xF033⟩
  | .stRegs _ => ⟨"FX55", "ST_REGS", 0xF0FF, 0xF055⟩
  | .ldRegs _ => ⟨"FX65", "LD_REGS", 0xF0FF, 0xF065⟩

/-- The whole table of 30_encoding R84, in its order: the rows of one instruction of each kind. -/
def opcodeTable : List OpcodeRow :=
  [ .cls, .ret, .jp 0, .call 0, .seImm 0 0, .sneImm 0 0, .seReg 0 0, .sneReg 0 0, .ldImm 0 0,
    .addImm 0 0, .ldReg 0 0, .orReg 0 0, .andReg 0 0, .xorReg 0 0, .addReg 0 0, .sub 0 0, .shr 0 0,
    .subn 0 0, .shl 0 0, .ldI 0, .jpV0 0, .rnd 0 0, .drw 0 0 0, .skp 0, .sknp 0, .ldVxDt 0, .ldDtVx 0,
    .ldStVx 0, .addI 0, .ldVxK 0, .ldF 0, .ldB 0, .stRegs 0, .ldRegs 0 ].map rowOf

/-- Does the row select the word (R84)? -/
def OpcodeRow.selects (r : OpcodeRow) (op : Word) : Bool := op &&& r.mask == r.value

/-- The word whose bits are `w`, of which the table gives `nbits`; every bit above them is 0. -/
def tableWord (nbits w : Nat) : Word := BitVec.ofNat 16 (w % 2 ^ nbits)

/-- What the decoder reads from the bytes of a table word, laid out as memory holds them (R80). -/
def decodeTableWord (nbits w : Nat) : Option Instr :=
  match decode (bytesOfWord (tableWord nbits w)) with
  | .ok (i, _) => some i
  | .error _ => none

end Sys2Proof
end

