-- ==== Sys2Proof/Config.lean ====
section
/-!
DEFINITION. What is fixed for one machine (00_scope R5): the sizes, the configuration parameters with
the defaults the spec states, and the values the spec leaves free. A free value is a constant without a
body: no proof can learn what it is.
-/

namespace Sys2Proof.Config

/-- `MEM_SIZE` (R5, R50). -/
@[simp] abbrev memSize : Nat := 4096

/-- `PROG_BASE` (R5, R50). -/
@[simp] abbrev progBase : Nat := 0x200

/-- `PROG_MAX`, the most bytes a program may have (R5). -/
@[simp] abbrev progMax : Nat := memSize - progBase

/-- `FONT_GLYPH_BYTES` (R5). -/
@[simp] abbrev glyphBytes : Nat := 5

/-- The size of `FONT_DATA`: `FONT_GLYPHS` glyphs of `FONT_GLYPH_BYTES` (R5, R37). -/
@[simp] abbrev fontSize : Nat := 80

/-- `STACK_DEPTH` (R5, R27). -/
@[simp] abbrev stackDepth : Nat := 16

/-- `NKEYS` (R5, R29). -/
@[simp] abbrev nKeys : Nat := 16

/-- The parameters the model takes as a configuration argument (00_scope R5). `exec` has no argument for
them, so they stand in `State.cfg`, where no step changes them: what is proved of every state is proved
of every value of them (log 5). -/
structure Params where
  /-- `DISPLAY_W`, columns (R30, D9; log 8). -/
  displayW : Nat
  /-- `DISPLAY_H`, rows (R30, D9; log 8). -/
  displayH : Nat
  /-- `FONT_BASE` (R37, D8). -/
  fontBase : Word
  /-- `FONT_DATA` (R37, D8). -/
  fontData : Vector Byte fontSize
  /-- `SPRITE_MSB_LEFT` (R192, D6). -/
  spriteMsbLeft : Bool
  /-- `FX29_MASK_NIBBLE` (R172, D10). -/
  fx29MaskNibble : Bool
  /-- `CLS_SETS_REDRAW` (R190, D11). -/
  clsSetsRedraw : Bool
deriving DecidableEq, Repr

/-- The default `FONT_DATA` of 10_state R37. PRESUMED, log 6: unsafe for a claim that rests on the
bytes; the spec offers the table from general knowledge. -/
def defaultFont : Vector Byte fontSize := Vector.mk #[
  0xF0, 0x90, 0x90, 0x90, 0xF0,  0x20, 0x60, 0x20, 0x20, 0x70,
  0xF0, 0x10, 0xF0, 0x80, 0xF0,  0xF0, 0x10, 0xF0, 0x10, 0xF0,
  0x90, 0x90, 0xF0, 0x10, 0x10,  0xF0, 0x80, 0xF0, 0x10, 0xF0,
  0xF0, 0x80, 0xF0, 0x90, 0xF0,  0xF0, 0x10, 0x20, 0x40, 0x40,
  0xF0, 0x90, 0xF0, 0x90, 0xF0,  0xF0, 0x90, 0xF0, 0x10, 0xF0,
  0xF0, 0x90, 0xF0, 0x90, 0x90,  0xE0, 0x90, 0xE0, 0x90, 0xE0,
  0xF0, 0x80, 0x80, 0x80, 0xF0,  0xE0, 0x90, 0x90, 0x90, 0xE0,
  0xF0, 0x80, 0xF0, 0x80, 0xF0,  0xF0, 0x80, 0xF0, 0x80, 0x80] rfl

/-- The defaults of 00_scope R5. PRESUMED for the font bytes and the sprite bit order (logs 6, 7),
DESIGN CHOICE for the rest (log 5): unsafe for a claim that rests on one of them. -/
def Params.standard : Params where
  displayW := 64
  displayH := 32
  fontBase := 0x050
  fontData := defaultFont
  spriteMsbLeft := true
  fx29MaskNibble := false
  clsSetsRedraw := true

/-- What memory holds at address `a` after reset (R36, R37, R290): the font byte in the font region,
else 0. -/
def Params.resetByte (p : Params) (a : Nat) : Byte :=
  if p.fontBase.toNat ≤ a then p.fontData.toArray.getD (a - p.fontBase.toNat) 0 else 0

/-- The length of `T_TICK` in the unit of `now` and `t_last` (R5, R235: any unit in which 1/60 s is
expressible). DESIGN CHOICE, log 25: safe; only differences in units of `T_TICK` matter. -/
@[simp] abbrev tTick : Int := 1000000

/-- `T_LAST_RESET`, OPEN (R34, D13): a free value, log 4. -/
opaque tLastReset : Int

/-- FREE VALUE, log 2: the number of ticks the host's clock makes the `k`-th free Step apply (R267). -/
opaque freeTicks : Nat → Nat

/-- FREE VALUE, log 2: the key state the host presents with the `k`-th free Step (R102, R234). -/
opaque freeKeys : Nat → Vector Bool nKeys

/-- FREE VALUE, log 2: the random byte the host presents with the `k`-th free Step (R151, R236). -/
opaque freeRnd : Nat → Byte

end Sys2Proof.Config
end

