-- ==== Sys2Proof/Machine/State.lean ====
section
/-!
DEFINITION. The state of the machine: 10_state R20's complete list, each element with its width, and
beside it the model's own fields (configuration, Step inputs and Step outcome, which `exec` and `step`
have no argument or result for). All plain data.
-/

namespace Sys2Proof.Machine

/-- The errors a Step can report to the host (60_exceptions R250). -/
inductive StepError where
  /-- code 1: 00EE with `sp = 0` (R252) -/
  | stackUnderflow
  /-- code 2: 2NNN with `sp = 16` (R253) -/
  | stackOverflow
  /-- code 3: a byte to be accessed lies above 0xFFF; `base` is `pc` for a fetch, `I` for an instruction
  (R254) -/
  | addressError (base : Nat)
  /-- code 4: EX9E or EXA1 with `x[X] > 15`; `k` is that value (R255) -/
  | keyIndexError (k : Byte)
deriving DecidableEq, Repr

/-- The result of a Step as the host receives it (48_host_interface R238). -/
inductive StepOutcome where
  | ok
  | err (e : StepError)
deriving DecidableEq, Repr

/-- Why the model stops. No Step and no instruction ever faults: every error of the spec is a next state
that reports it (60_exceptions R258, R259; log 1). -/
inductive Fault where
  /-- Raised by the host transaction `ReadPixel` for a cell outside the grid, which does not exist
  (44_display R194, 48_host_interface R237; log 23): safe. -/
  | noSuchPixel (r c : Nat)
deriving DecidableEq, Repr

/-- What the model gives no meaning. No Step and no instruction is ever refused. -/
inductive Refusal where
  /-- Raised by an arm of `exec` whose instruction has no meaning yet: no arm raises it. Safe. -/
  | notModelled (mnemonic : String)
  /-- Raised by the host transaction `Load` after a successful `Load` or after a Step: no such host move
  exists (20_memory R66, 48_host_interface R240, U17; log 18). Safe. -/
  | loadNotOffered
deriving DecidableEq, Repr

/-- What the host supplies with one Step (40_step_cycle R100, 48_host_interface R233): the ticks its clock
makes this Step apply (60_exceptions R267), the key state, the random byte. -/
structure HostInput where
  ticks : Nat
  keysIn : Vector Bool Config.nKeys
  rnd : Byte
deriving DecidableEq, Repr

/-- Memory: (address, byte) cells, addresses strictly rising, none listed that holds what it held at
reset (20_memory R50; log 20). -/
abbrev Memory := List Host.Cell

/-- The pixel buffer: its rows, row 0 first, each with its columns, column 0 first (10_state R30; log 26). A
grid of the machine's own size, since DISPLAY_W and DISPLAY_H are parameters (log 8). -/
abbrev Pixels := List (List Bool)

/-- The pixel buffer with every cell 0 (10_state R36, 44_display R190). -/
def Pixels.blank (w h : Nat) : Pixels := List.replicate h (List.replicate w false)

/-- The state (10_state R20), and from `cfg` on the model's own fields. -/
structure State where
  /-- `mem` (R33, R50) -/
  mem : Memory
  /-- `x[0]` to `x[15]`; `x[15]` is also the flag (R22, R23) -/
  x : Vector Byte 16
  /-- `I` (R26) -/
  index : Word
  /-- `pc` (R24) -/
  pc : Word
  /-- `stack[0]` to `stack[15]` (R27) -/
  stack : Vector Word Config.stackDepth
  /-- `sp`, 0 to 16: the number of entries in use (R27) -/
  sp : Fin 17
  /-- `DT` (R28) -/
  dt : Byte
  /-- `ST` (R28) -/
  st : Byte
  /-- `key[0]` to `key[15]` (R29) -/
  key : Vector Bool Config.nKeys
  /-- `pix[r][c]` (R30) -/
  pix : Pixels
  /-- `draw` (R31) -/
  draw : Bool
  /-- `t_last`, as the number of tick intervals it has advanced since reset (R34, R265; log 4) -/
  tLast : Nat
  /-- The configuration parameters (00_scope R5); no step changes them (R35; log 5). -/
  cfg : Config.Params
  /-- The input `rnd` of the Step under way (R236; log 2). -/
  rnd : Byte
  /-- The result of the latest Step (R238; log 1). -/
  outcome : StepOutcome
  /-- Some Step of this run reported an error: R260's fault record, never cleared and never final. -/
  errSeen : Bool
  /-- `Load` is still a move the host has (R66; log 18). -/
  loadOpen : Bool
  /-- Inputs of coming Steps that the host has lined up, oldest first (log 2). -/
  pending : List HostInput
  /-- How many Steps have taken their inputs: the index of the next free values (log 2). -/
  stepNo : Nat
deriving DecidableEq, Repr

/-- The machine after `Reset` under a given configuration (10_state R36, 70_reset R290). Memory lists
nothing: every byte reads as its reset contents. `rnd`, `outcome`, `errSeen`, `pending`, `stepNo` and
`tLast` are the model's own fields: DESIGN CHOICE, logs 2, 3, 4. -/
def State.resetWith (p : Config.Params) : State where
  mem := []
  x := Vector.replicate 16 0
  index := 0
  pc := 0x200
  stack := Vector.replicate Config.stackDepth 0
  sp := 0
  dt := 0
  st := 0
  key := Vector.replicate Config.nKeys false
  pix := Pixels.blank p.displayW p.displayH
  draw := true
  tLast := 0
  cfg := p
  rnd := 0
  outcome := .ok
  errSeen := false
  loadOpen := true
  pending := []
  stepNo := 0

/-- The machine right after reset, its parameters at the spec's defaults (00_scope R5; log 5). -/
def State.reset : State := State.resetWith Config.Params.standard

end Sys2Proof.Machine
end

