-- ==== Sys2Proof/Machine/Memory.lean ====
section
/-!
DEFINITION. Memory as a canonical list of cells over a background `bg` (what an unlisted address reads
as): reading, writing, and the form every operation keeps (20_memory R50, R53, R55, R58; log 20).
-/

namespace Sys2Proof.Machine

/-- The byte at address `a`: the listed one, else the background's. -/
def Memory.read (bg : Nat → Byte) : Memory → Nat → Byte
  | [], a => bg a
  | (b, w) :: m, a => if a = b then w else Memory.read bg m a

/-- The list without any cell of address `a`. -/
def Memory.erase (m : Memory) (a : Nat) : Memory := m.filter fun c => c.1 != a

/-- A cell put at its place in the rising order. -/
def Memory.insert : Memory → Nat → Byte → Memory
  | [], a, v => [(a, v)]
  | (b, w) :: m, a, v => if a < b then (a, v) :: (b, w) :: m else (b, w) :: Memory.insert m a v

/-- Store `v` at address `a`. A value the background already holds there is not listed. -/
def Memory.write (bg : Nat → Byte) (m : Memory) (a : Nat) (v : Byte) : Memory :=
  if v = bg a then Memory.erase m a else Memory.insert (Memory.erase m a) a v

/-- Every address of the list lies at or above `lo` and inside memory, they rise strictly, and no cell
holds what the background holds. -/
def Memory.wfFrom (bg : Nat → Byte) : Nat → Memory → Bool
  | _, [] => true
  | lo, (a, v) :: m =>
    decide (lo ≤ a) && decide (a < Config.memSize) && decide (v ≠ bg a) && Memory.wfFrom bg (a + 1) m

/-- The canonical form of memory. -/
def Memory.wf (bg : Nat → Byte) (m : Memory) : Bool := Memory.wfFrom bg 0 m

end Sys2Proof.Machine
end

