-- ==== Sys2Proof/Machine/Ops.lean ====
section
/-!
DEFINITION. The named operations over registers, memory, the stack, the program counter and the Step
outcome, and the one operation by which an instruction reports an error (60_exceptions R250 to R260).
-/

namespace Sys2Proof.Machine

/-- What an instruction or a Step answers. -/
abbrev Result := Host.Outcome State Fault Refusal

/-! ### Registers -/

/-- `x[r]` (00_scope R9). -/
def State.reg (s : State) (r : Reg) : Byte := s.x.get r

/-- `x[r] <- v` (00_scope R9). -/
def State.setReg (s : State) (r : Reg) (v : Byte) : State := { s with x := s.x.set r.val v r.isLt }

/-- Write the flag register, 0 or 1 (10_state R23). -/
def State.setFlag (s : State) (b : Bool) : State := s.setReg regF (bitByte b)

/-- The flag first, the result second: with X = 0xF the result remains (42_alu, D7; log 11). -/
def State.setFlagThenReg (s : State) (f : Bool) (r : Reg) (v : Byte) : State := (s.setFlag f).setReg r v

/-- `I <- v` (10_state R26). -/
def State.setIndex (s : State) (v : Word) : State := { s with index := v }

/-- `DT <- v` (10_state R28). -/
def State.setDt (s : State) (v : Byte) : State := { s with dt := v }

/-- `ST <- v` (10_state R28). -/
def State.setSt (s : State) (v : Byte) : State := { s with st := v }

/-! ### The program counter -/

/-- `pc <- target` (00_scope R9). -/
def State.setPc (s : State) (target : Word) : State := { s with pc := target }

/-- `skip`: `pc <- (pc + 2) mod 65536`, also the fetch-phase advance (00_scope R9, 40_step_cycle R104). -/
def State.skip (s : State) : State := s.setPc (s.pc + 2)

/-- Skip when the condition holds (41_flow R123 to R126, 45_keys_timers R210, R211). -/
def State.skipIf (s : State) (b : Bool) : State := if b then s.skip else s

/-- `pc <- (pc - 2) mod 65536`: back to the instruction's own address (45_keys_timers R212). -/
def State.rewind (s : State) : State := s.setPc (s.pc - 2)

/-! ### Reporting an error -/

/-- The code of an error (60_exceptions R250). -/
def StepError.code : StepError → Nat
  | .stackUnderflow => 1
  | .stackOverflow => 2
  | .addressError _ => 3
  | .keyIndexError _ => 4

/-- The info of an error (60_exceptions R250). -/
def StepError.info : StepError → Option Nat
  | .stackUnderflow => none
  | .stackOverflow => none
  | .addressError base => some base
  | .keyIndexError k => some k.toNat

/-- End the Step with `Err`: the outcome is the error, the fault record is set, and nothing else changes
(40_step_cycle R106; 60_exceptions R258, R260; log 1). -/
def State.report (s : State) (e : StepError) : State := { s with outcome := .err e, errSeen := true }

/-- `raise e` (00_scope R9): the exception of this machine. It saves nothing, switches nothing and goes
nowhere; the pc stays where the fetch phase left it (R258). -/
def raise (e : StepError) (s : State) : Result := .next (s.report e)

/-- The end of an instruction whose checks precede its first write: the new state, or the error raised in
the state before it (R106). -/
def settle (s : State) : Except StepError State → Result
  | .ok t => .next t
  | .error e => raise e s

/-! ### Memory -/

/-- The byte memory holds at address `a`. -/
def State.peek (s : State) (a : Nat) : Byte := Memory.read s.cfg.resetByte s.mem a

/-- Put a byte into memory; no write ever targets an address outside it (20_memory R51). -/
def State.poke (s : State) (a : Nat) (v : Byte) : State :=
  if a < Config.memSize then { s with mem := Memory.write s.cfg.resetByte s.mem a v } else s

/-- Put bytes at ascending addresses (20_memory R58). -/
def State.pokes (s : State) (base : Nat) : List Byte → State
  | [] => s
  | v :: vs => State.pokes (s.poke base v) (base + 1) vs

/-- `MemRead(addr, 1)` (20_memory R53). -/
def memRead1 (a : Nat) (s : State) : Except StepError Byte :=
  if a > 0xFFF then .error (.addressError a) else .ok (s.peek a)

/-- `MemRead(addr, 2)`, big-endian (20_memory R54, R52). -/
def memRead2 (a : Nat) (s : State) : Except StepError Word :=
  if a + 1 > 0xFFF then .error (.addressError a) else .ok (s.peek a ++ s.peek (a + 1))

/-- `MemWrite(addr, 1, v)` (20_memory R55). -/
def memWrite1 (a : Nat) (v : Byte) (s : State) : Except StepError State :=
  if a > 0xFFF then .error (.addressError a) else .ok (s.poke a v)

/-- Do the `n` bytes from `base` up lie in memory? No byte at all always does (20_memory R56, R59;
44_display R191). -/
def rangeOk (base n : Nat) : Bool := decide (n = 0 ∨ base + n - 1 ≤ 0xFFF)

/-- The `n` bytes from `base` up, or the address error: the whole range is checked first (R56). -/
def readBytes (base n : Nat) (s : State) : Except StepError (List Byte) :=
  if rangeOk base n then .ok ((List.range n).map fun i => s.peek (base + i))
  else .error (.addressError base)

/-- Store bytes from `base` up, or the address error with nothing written (R56). -/
def writeBytes (base : Nat) (vs : List Byte) (s : State) : Except StepError State :=
  if rangeOk base vs.length then .ok (s.pokes base vs) else .error (.addressError base)

/-- Load bytes into `x[k]`, `x[k+1]`, ... (43_index_memory R175). -/
def loadRegs (x : Vector Byte 16) (k : Nat) : List Byte → Vector Byte 16
  | [] => x
  | v :: vs => loadRegs (if h : k < 16 then x.set k v h else x) (k + 1) vs

/-! ### The call stack -/

/-- Push: `stack[sp] <- v; sp <- sp + 1`; the full stack is an error (41_flow R122). -/
def State.push (s : State) (v : Word) : Except StepError State :=
  if h : s.sp.val < 16 then
    .ok { s with stack := s.stack.set s.sp.val v h, sp := ⟨s.sp.val + 1, by omega⟩ }
  else .error .stackOverflow

/-- Pop: `sp <- sp - 1; pc <- stack[sp]`; the entry stays; the empty stack is an error (41_flow R120,
10_state R27). -/
def State.popPc (s : State) : Except StepError State :=
  if h : s.sp.val = 0 then .error .stackUnderflow
  else .ok { s with sp := ⟨s.sp.val - 1, by omega⟩, pc := s.stack[s.sp.val - 1]'(by have := s.sp.isLt; simp; omega) }

/-! ### Keys -/

/-- `key[k]` (10_state R29). -/
def State.keyDown (s : State) (k : Fin 16) : Bool := s.key.get k

/-- The lowest-numbered key that is down, if any (45_keys_timers R212). -/
def State.lowestKey (s : State) : Option (Fin 16) := (List.finRange 16).find? s.keyDown

end Sys2Proof.Machine
end

