-- ==== Sys2Proof/Machine/Operands.lean ====
section
/-!
DEFINITION. Every operand form of the instruction set: zero-extended immediates (30_encoding R83), the
data addressing mode `I + i` (43_index_memory R176), register ranges (R174, R175), the key number
(45_keys_timers R210), the sprite's origin and row count (44_display R191), the glyph address
(43_index_memory R172), the decimal digits (R173).
-/

namespace Sys2Proof.Machine

/-- A 12-bit address zero-extended to 16 bits (30_encoding R83). -/
def addr16 (nnn : BitVec 12) : Word := nnn.setWidth 16

/-- A register's value zero-extended to 16 bits (41_flow R127, 43_index_memory R171). -/
def State.reg16 (s : State) (r : Reg) : Word := (s.reg r).setWidth 16

/-- The effective base address `I`, a natural number that is never reduced (R176, 20_memory R56). -/
def State.base (s : State) : Nat := s.index.toNat

/-- `x[0]` to `x[X]` (R174). -/
def State.regsUpTo (s : State) (x : Reg) : List Byte := s.x.toList.take (x.val + 1)

/-- The key a key instruction names: the value of `x[X]`, which must be 0 to 15 (R210). -/
def State.keyNumber (s : State) (x : Reg) : Except StepError (Fin 16) :=
  if h : (s.reg x).toNat < 16 then .ok ⟨(s.reg x).toNat, h⟩ else .error (.keyIndexError (s.reg x))

/-- The origin column `x[X] mod W` (R191). -/
def State.originCol (s : State) (x : Reg) : Nat := (s.reg x).toNat % s.cfg.displayW

/-- The origin row `x[Y] mod H` (R191). -/
def State.originRow (s : State) (y : Reg) : Nat := (s.reg y).toNat % s.cfg.displayH

/-- The rows not clipped at the bottom, `min(N, H - y0)` (R191, D22; log 16). -/
def State.spriteRows (s : State) (n : BitVec 4) (y0 : Nat) : Nat := min n.toNat (s.cfg.displayH - y0)

/-- `FONT_BASE + 5 * d` with d all of `x[X]`, or its low nibble where FX29_MASK_NIBBLE is set (R172,
D10; log 9). -/
def State.glyphAddr (s : State) (x : Reg) : Word :=
  let d := if s.cfg.fx29MaskNibble then (s.reg x).toNat % 16 else (s.reg x).toNat
  BitVec.ofNat 16 (s.cfg.fontBase.toNat + Config.glyphBytes * d)

/-- Hundreds, tens and ones of a byte, each a byte 0 to 9 (R173). -/
def bcdDigits (v : Byte) : List Byte :=
  [BitVec.ofNat 8 (v.toNat / 100), BitVec.ofNat 8 (v.toNat / 10 % 10), BitVec.ofNat 8 (v.toNat % 10)]

end Sys2Proof.Machine
end

