-- ==== Sys2Proof/Machine/Flags.lean ====
section
/-!
DEFINITION. Every flag computation of the instruction set (10_state R23): the value that 8XY4, 8XY5,
8XY6, 8XY7 and 8XYE write to `x[0xF]`, from the operands latched before any write (D7). DXYN's collision
flag is computed as it draws (Machine/Display.lean).
-/

namespace Sys2Proof.Machine

/-- 8XY4: the exact sum exceeds 255 (42_alu R146). -/
def carryFlag (a b : Byte) : Bool := decide (a.toNat + b.toNat > 255)

/-- 8XY5: `a > b`, strictly, so 0 when equal (42_alu R147). -/
def subFlag (a b : Byte) : Bool := decide (a.toNat > b.toNat)

/-- 8XY7: `a < b`, strictly, so 0 when equal (42_alu R149). -/
def subnFlag (a b : Byte) : Bool := decide (a.toNat < b.toNat)

/-- 8XY6: the bit shifted out, bit 0 (42_alu R148). -/
def shrFlag (b : Byte) : Bool := b.getLsbD 0

/-- 8XYE: the bit shifted out, bit 7 (42_alu R150). -/
def shlFlag (b : Byte) : Bool := b.getLsbD 7

end Sys2Proof.Machine
end

