-- ==== Sys2Proof/Machine/Alu.lean ====
section
/-!
DEFINITION. Register load, arithmetic, logic, shift and random instructions (42_alu). Source operands are
read before any write; the flag is written before the result (D7; log 11).
-/

namespace Sys2Proof.Machine

/-- 6XNN (R140). -/
def execLdImm (x : Reg) (nn : Byte) (s : State) : Result := .next (s.setReg x nn)

/-- 7XNN (R141): wraps modulo 256, no flag. -/
def execAddImm (x : Reg) (nn : Byte) (s : State) : Result := .next (s.setReg x (s.reg x + nn))

/-- 8XY0 (R142). -/
def execLdReg (x y : Reg) (s : State) : Result := .next (s.setReg x (s.reg y))

/-- 8XY1 (R143): no flag. -/
def execOrReg (x y : Reg) (s : State) : Result := .next (s.setReg x (s.reg x ||| s.reg y))

/-- 8XY2 (R144): no flag. -/
def execAndReg (x y : Reg) (s : State) : Result := .next (s.setReg x (s.reg x &&& s.reg y))

/-- 8XY3 (R145): no flag. -/
def execXorReg (x y : Reg) (s : State) : Result := .next (s.setReg x (s.reg x ^^^ s.reg y))

/-- 8XY4 (R146). -/
def execAddReg (x y : Reg) (s : State) : Result :=
  let a := s.reg x
  let b := s.reg y
  .next (s.setFlagThenReg (carryFlag a b) x (a + b))

/-- 8XY5 (R147). -/
def execSub (x y : Reg) (s : State) : Result :=
  let a := s.reg x
  let b := s.reg y
  .next (s.setFlagThenReg (subFlag a b) x (a - b))

/-- 8XY6 (R148): reads Y, writes X. -/
def execShr (x y : Reg) (s : State) : Result :=
  let b := s.reg y
  .next (s.setFlagThenReg (shrFlag b) x (b >>> 1))

/-- 8XY7 (R149). -/
def execSubn (x y : Reg) (s : State) : Result :=
  let a := s.reg x
  let b := s.reg y
  .next (s.setFlagThenReg (subnFlag a b) x (b - a))

/-- 8XYE (R150): reads Y, writes X. -/
def execShl (x y : Reg) (s : State) : Result :=
  let b := s.reg y
  .next (s.setFlagThenReg (shlFlag b) x (b <<< 1))

/-- CXNN (R151): the random byte is the Step's input. -/
def execRnd (x : Reg) (nn : Byte) (s : State) : Result := .next (s.setReg x (s.rnd &&& nn))

end Sys2Proof.Machine
end

