-- ==== Sys2Proof/Machine/Display.lean ====
section
/-!
DEFINITION. The sprite drawing engine and the two display instructions (44_display), as the loops of
R191.
-/

namespace Sys2Proof.Machine

/-- `pix[r][c]`; a cell outside the grid does not exist, and no instruction reads one (R194). -/
def pixelAt (p : Pixels) (r c : Nat) : Bool := (p.getD r []).getD c false

/-- Does the buffer have `h` rows of `w` cells each? -/
def Pixels.sized (w h : Nat) (p : Pixels) : Bool := p.length == h && p.all (fun row => row.length == w)

/-- `pix[r][c] <- pix[r][c] ^ 1` (R191). -/
def togglePixel (p : Pixels) (r c : Nat) : Pixels := p.modify r fun row => row.modify c not

/-- The sprite bit of column `x0 + j`: bit `7 - j` of the byte where SPRITE_MSB_LEFT is set, else bit `j`
(R192, D6; log 7). -/
def spriteBit (msbLeft : Bool) (b : Byte) (j : Nat) : Bool := b.getLsbD (if msbLeft then 7 - j else j)

/-- The pixels so far and whether a collision has occurred. -/
structure Canvas where
  pix : Pixels
  hit : Bool
deriving DecidableEq, Repr

/-- Draw one sprite bit on one pixel: a bit of 0 does nothing; a bit of 1 on a set pixel is a collision,
and the pixel is toggled (R191). -/
def plot (bit : Bool) (r c : Nat) (k : Canvas) : Canvas :=
  if bit then ⟨togglePixel k.pix r c, k.hit || pixelAt k.pix r c⟩ else k

/-- Draw one sprite byte on row `r` from column `x0`, clipped at the right edge `w` (R191). -/
def drawByte (w : Nat) (msbLeft : Bool) (x0 r : Nat) (b : Byte) (k : Canvas) : Canvas :=
  (List.range 8).foldl
    (fun k j => if x0 + j < w then plot (spriteBit msbLeft b j) r (x0 + j) k else k) k

/-- Draw sprite bytes on rows `r`, `r + 1`, ... (R191). -/
def drawBytes (w : Nat) (msbLeft : Bool) (x0 : Nat) : Nat → List Byte → Canvas → Canvas
  | _, [], k => k
  | r, b :: bs, k => drawBytes w msbLeft x0 (r + 1) bs (drawByte w msbLeft x0 r b k)

/-- 00E0 (R190, D11; log 10). -/
def execCls (s : State) : Result :=
  .next { s with pix := Pixels.blank s.cfg.displayW s.cfg.displayH, draw := s.draw || s.cfg.clsSetsRedraw }

/-- DXYN (R191): the origin is computed from the old registers, the bytes of the rows that are drawn are
read (or the address error raised) before any write, then the sprite is drawn, the collision goes to
`x[0xF]`, and `draw` is set. -/
def execDrw (x y : Reg) (n : BitVec 4) (s : State) : Result :=
  let x0 := s.originCol x
  let y0 := s.originRow y
  settle s ((readBytes s.base (s.spriteRows n y0) s).map fun bytes =>
    let k := drawBytes s.cfg.displayW s.cfg.spriteMsbLeft x0 y0 bytes ⟨s.pix, false⟩
    { s with pix := k.pix, draw := true }.setFlag k.hit)

end Sys2Proof.Machine
end

