-- ==== Sys2Proof/Machine/Flow.lean ====
section
/-!
DEFINITION. Control transfer (41_flow). At entry `pc` is the instruction's own address plus 2
(40_step_cycle R104).
-/

namespace Sys2Proof.Machine

/-- 00EE (R120). -/
def execRet (s : State) : Result := settle s s.popPc

/-- 1NNN (R121). -/
def execJp (nnn : BitVec 12) (s : State) : Result := .next (s.setPc (addr16 nnn))

/-- 2NNN (R122): the pushed value is the address of the next instruction. -/
def execCall (nnn : BitVec 12) (s : State) : Result :=
  settle s ((s.push s.pc).map fun t => t.setPc (addr16 nnn))

/-- 3XNN (R123). -/
def execSeImm (x : Reg) (nn : Byte) (s : State) : Result := .next (s.skipIf (s.reg x == nn))

/-- 4XNN (R124). -/
def execSneImm (x : Reg) (nn : Byte) (s : State) : Result := .next (s.skipIf (s.reg x != nn))

/-- 5XY0 (R125). -/
def execSeReg (x y : Reg) (s : State) : Result := .next (s.skipIf (s.reg x == s.reg y))

/-- 9XY0 (R126). -/
def execSneReg (x y : Reg) (s : State) : Result := .next (s.skipIf (s.reg x != s.reg y))

/-- BNNN (R127): both addends zero-extended; the sum is not reduced modulo 4096. -/
def execJpV0 (nnn : BitVec 12) (s : State) : Result := .next (s.setPc (s.reg16 reg0 + addr16 nnn))

end Sys2Proof.Machine
end

