-- ==== Sys2Proof/Machine/IndexMemory.lean ====
section
/-!
DEFINITION. Index register and memory instructions (43_index_memory). The whole address range is checked
before the first read or write (20_memory R56); `I` is never changed by a transfer (R176).
-/

namespace Sys2Proof.Machine

/-- ANNN (R170). -/
def execLdI (nnn : BitVec 12) (s : State) : Result := .next (s.setIndex (addr16 nnn))

/-- FX1E (R171): wraps modulo 65536, no flag. -/
def execAddI (x : Reg) (s : State) : Result := .next (s.setIndex (s.index + s.reg16 x))

/-- FX29 (R172): no memory access. -/
def execLdF (x : Reg) (s : State) : Result := .next (s.setIndex (s.glyphAddr x))

/-- FX33 (R173): hundreds, tens, ones at `I`, `I+1`, `I+2`. -/
def execLdB (x : Reg) (s : State) : Result := settle s (writeBytes s.base (bcdDigits (s.reg x)) s)

/-- FX55 (R174): `x[0]` to `x[X]` to `mem[I]` up. -/
def execStRegs (x : Reg) (s : State) : Result := settle s (writeBytes s.base (s.regsUpTo x) s)

/-- FX65 (R175): `mem[I]` up to `x[0]` to `x[X]`. -/
def execLdRegs (x : Reg) (s : State) : Result :=
  settle s ((readBytes s.base (x.val + 1) s).map fun bytes => { s with x := loadRegs s.x 0 bytes })

end Sys2Proof.Machine
end

