-- ==== Sys2Proof/Machine/KeysTimers.lean ====
section
/-!
DEFINITION. Key and timer instructions (45_keys_timers). `key` is the latch as this Step refreshed it,
`DT` and `ST` are the values after this Step's ticks (40_step_cycle R101, R102).
-/

namespace Sys2Proof.Machine

/-- EX9E (R210). -/
def execSkp (x : Reg) (s : State) : Result :=
  settle s ((s.keyNumber x).map fun k => s.skipIf (s.keyDown k))

/-- EXA1 (R211). -/
def execSknp (x : Reg) (s : State) : Result :=
  settle s ((s.keyNumber x).map fun k => s.skipIf (!s.keyDown k))

/-- FX0A (R212): a wait by replay, never an error and never a block. -/
def execLdVxK (x : Reg) (s : State) : Result :=
  .next (match s.lowestKey with
    | none => s.rewind
    | some k => s.setReg x (BitVec.ofNat 8 k.val))

/-- FX07 (R213). -/
def execLdVxDt (x : Reg) (s : State) : Result := .next (s.setReg x s.dt)

/-- FX15 (R214): the tick phase is not reset. -/
def execLdDtVx (x : Reg) (s : State) : Result := .next (s.setDt (s.reg x))

/-- FX18 (R215). -/
def execLdStVx (x : Reg) (s : State) : Result := .next (s.setSt (s.reg x))

end Sys2Proof.Machine
end

