-- ==== Sys2Proof/Machine/Timers.lean ====
section
/-!
DEFINITION. The timer block (60_exceptions R264 to R268): a Step's ticks as a count (R267), and the
source's loop on the host's clock (R265) with its closed form (R266).
-/

namespace Sys2Proof.Machine

/-- A timer after `n` ticks, `max(t - n, 0)`: toward zero, never below (R266). -/
def decay (t : Byte) (n : Nat) : Byte := if t = 0 then 0 else BitVec.ofNat 8 (t.toNat - n)

/-- Phase (a) with the tick count given: both timers see the same ticks, and `t_last` grows by as many
intervals (R266, R267; log 4). -/
def tickTimers (n : Nat) (s : State) : State :=
  { s with dt := decay s.dt n, st := decay s.st n, tLast := s.tLast + n }

/-- `t_last` as a time: `T_LAST_RESET` and the intervals since (R34; log 4). -/
def State.lastTick (s : State) : Int := Config.tLastReset + s.tLast * Config.tTick

/-- The loop body of TickTimers (R265). -/
def tickOnce (s : State) : State :=
  { s with
    dt := if s.dt = 0 then 0 else s.dt - 1
    st := if s.st = 0 then 0 else s.st - 1
    tLast := s.tLast + 1 }

/-- TickTimers, the source's loop (R265), run for at most `fuel` rounds: while the elapsed time exceeds one
interval, strictly, tick once. -/
def tickLoop : Nat → Int → State → State
  | 0, _, s => s
  | fuel + 1, now, s => if now - s.lastTick > Config.tTick then tickLoop fuel now (tickOnce s) else s

/-- The number of ticks for an elapsed time, `max(0, ceil(e / T_TICK) - 1)` (R266). -/
def tickCount (elapsed : Int) : Nat := (-((-elapsed) / Config.tTick) - 1).toNat

/-- The ticks that are due at the time `now` (R266). -/
def State.ticksDue (s : State) (now : Int) : Nat := tickCount (now - s.lastTick)

end Sys2Proof.Machine
end

