-- ==== Sys2Proof/Machine/Cycle.lean ====
section
/-!
DEFINITION. The Step cycle, phases (a) to (g) (40_step_cycle R100), and where a Step's inputs come from
(R102, R151, R267; log 2).
-/

namespace Sys2Proof.Machine

/-- The inputs of the next Step: those the host has lined up, else free values (log 2). -/
def State.input (s : State) : HostInput :=
  match s.pending with
  | inp :: _ => inp
  | [] => ⟨Config.freeTicks s.stepNo, Config.freeKeys s.stepNo, Config.freeRnd s.stepNo⟩

/-- The inputs of the next Step are taken: none of them is used again (log 2). -/
def State.takeInput (s : State) : State := { s with pending := s.pending.tail, stepNo := s.stepNo + 1 }

/-- A Step begins: no error so far, and `Load` is no longer a move (48_host_interface R238, 20_memory R66). -/
def State.beginStep (s : State) : State := { s with outcome := .ok, loadOpen := false }

/-- Phase (b): all 16 keys are overwritten (R102, D15; log 17); the random byte of the Step is at hand. -/
def State.latch (s : State) (inp : HostInput) : State := { s with key := inp.keysIn, rnd := inp.rnd }

/-- The state after phases (a) and (b). -/
def State.afterInputs (s : State) (inp : HostInput) : State := (tickTimers inp.ticks s.beginStep).latch inp

/-- Phase (c): the big-endian word at `pc`, or the address error (R103). -/
def fetch (s : State) : Except StepError Word := memRead2 s.pc.toNat s

/-- Phase (g): an unrecognized word is a no-op, its pc advance already done (R105, 30_encoding R86). -/
def execUnrecognized (s : State) : Result := .next s

/-- Phases (e) to (g): decode the word and execute it (R104, R105). -/
def executeWord (op : Word) (s : State) : Result :=
  match decodeWord op with
  | .ok i => exec i s
  | .error _ => execUnrecognized s

/-- One Step with its inputs given (R100). A fetch error ends it in the state after phase (b), the pc
unchanged (R103); otherwise the pc advances by 2 before decode (R104). -/
def cycle (inp : HostInput) (s : State) : Result :=
  let s1 := s.afterInputs inp
  match fetch s1 with
  | .error e => raise e s1
  | .ok op => executeWord op s1.skip

/-- One Step with the inputs the state supplies. -/
def nextStep (s : State) : Result := cycle s.input s.takeInput

/-- Put a word where the next Step fetches: its high byte at `pc`, its low byte at `pc + 1` (20_memory
R52). A byte outside memory is not written. -/
def State.placeWord (s : State) (op : Word) : State := s.pokes s.pc.toNat (bytesOfWord op)

end Sys2Proof.Machine
end

