-- ==== Sys2Proof/Machine/Step.lean ====
section
/-!
DEFINITION. One step of the machine is one `Step` transaction (40_step_cycle R100): the phases are in
Machine/Cycle.lean. `withFetchWord` puts an instruction where the next Step fetches it, standing for the
host's `Load` (log 21).
-/

namespace Sys2Proof.Machine

/-- One Step. -/
def step (s : State) : Host.Outcome State Fault Refusal := nextStep s

/-- The state with the instruction of a table word stored where `step` fetches next, two bytes, the high
byte first. Nothing else changes. -/
def State.withFetchWord (s : State) (nbits w : Nat) : State := s.placeWord (tableWord nbits w)

end Sys2Proof.Machine
end

