-- ==== Sys2Proof/Machine/HostPort.lean ====
section
/-!
DEFINITION. The host's six transactions (48_host_interface R230 to R240), each one indivisible move from
state to state with a reply. `Load` is a move only after `Reset` and before the first Step, once (20_memory
R66).
-/

namespace Sys2Proof.Machine

/-- The transactions of R230. `stepAt` is `Step` with the host's clock (R233); `step` is `Step` with the
tick count the clock amounts to (60_exceptions R267). -/
inductive Transaction where
  | reset
  | load (bytes : List Byte)
  | step (inp : HostInput)
  | stepAt (now : Int) (keysIn : Vector Bool Config.nKeys) (rnd : Byte)
  | readPixel (r c : Nat)
  | readDraw
  | clearDraw
deriving DecidableEq, Repr

/-- What the host gets back (R231, R232, R237, R238). -/
inductive Reply where
  | done
  | loadOk
  /-- `Err(LoadTooLarge)` (60_exceptions R256) -/
  | loadTooLarge
  | stepped (o : StepOutcome)
  | bit (b : Bool)
deriving DecidableEq, Repr

/-- `Reset()` (R231): every element of the spec's state to its reset value, under the same parameters. The
inputs lined up and the index of the free values go on, so that free values stay fresh (log 22). -/
def hostReset (s : State) : State :=
  { State.resetWith s.cfg with pending := s.pending, stepNo := s.stepNo }

/-- `Load(bytes)` (R232): too long a program writes nothing; else the bytes stand from 0x200 up, verbatim,
in order, nothing else changes, and no further `Load` is a move (R66). -/
def hostLoad (bytes : List Byte) (s : State) : Reply × State :=
  if bytes.length + Config.progBase > Config.memSize then (.loadTooLarge, s)
  else (.loadOk, { s.pokes Config.progBase bytes with loadOpen := false })

/-- `ReadPixel(r, c)` inside the grid (R237). -/
def hostReadPixel (r c : Nat) (s : State) : Bool := pixelAt s.pix r c

/-- `ReadDraw()` (R237). -/
def hostReadDraw (s : State) : Bool := s.draw

/-- `ClearDraw()` (R237). -/
def hostClearDraw (s : State) : State := { s with draw := false }

/-- A Step's answer with its outcome as the reply (R238). -/
def withReply : Result → Host.Outcome (Reply × State) Fault Refusal
  | .next t => .next (.stepped t.outcome, t)
  | .fault f => .fault f
  | .refused r => .refused r

/-- One host transaction (R230). -/
def transact (m : Transaction) (s : State) : Host.Outcome (Reply × State) Fault Refusal :=
  match m with
  | .reset => .next (.done, hostReset s)
  | .load bytes => if s.loadOpen then .next (hostLoad bytes s) else .refused .loadNotOffered
  | .step inp => withReply (cycle inp s)
  | .stepAt now keysIn rnd => withReply (cycle ⟨s.ticksDue now, keysIn, rnd⟩ s)
  | .readPixel r c =>
    if r < s.cfg.displayH ∧ c < s.cfg.displayW then .next (.bit (hostReadPixel r c s), s)
    else .fault (.noSuchPixel r c)
  | .readDraw => .next (.bit (hostReadDraw s), s)
  | .clearDraw => .next (.done, hostClearDraw s)

end Sys2Proof.Machine
end

