-- ==== Sys2Proof/Safety.lean ====
section
/-!
DEFINITION. What claims are stated in: frames (what an instruction leaves unchanged), results (what it
writes), the invariants of the state, what counts as a clean run (60_exceptions R260, 92 D20), and the
spec's own tables as predicates (10_state R22, R25; 60_exceptions R250).
-/

namespace Sys2Proof.Machine

/-! ### Frames -/

/-- Every byte of memory reads as before. -/
def SameMemory (s t : State) : Prop := ∀ a, t.peek a = s.peek a

/-- Every byte of memory outside the `n` bytes from `lo` up reads as before. -/
def SameMemoryOutside (lo n : Nat) (s t : State) : Prop :=
  ∀ a, (a < lo ∨ lo + n ≤ a) → t.peek a = s.peek a

/-- Every general register but the listed ones is as before. -/
def SameRegsExcept (ds : List Reg) (s t : State) : Prop := ∀ r, r ∉ ds → t.reg r = s.reg r

/-- Nothing but the register file differs. -/
def OnlyRegs (s t : State) : Prop := t = { s with x := t.x } ∧ SameMemory s t

/-- Nothing but the program counter differs. -/
def OnlyPc (s t : State) : Prop := t = { s with pc := t.pc } ∧ SameMemory s t

/-- Nothing but the stack, its pointer and the program counter differs. -/
def OnlyStackAndPc (s t : State) : Prop :=
  t = { s with stack := t.stack, sp := t.sp, pc := t.pc } ∧ SameMemory s t

/-- Nothing but the index register differs. -/
def OnlyIndex (s t : State) : Prop := t = { s with index := t.index } ∧ SameMemory s t

/-- Nothing but the `n` bytes of memory from `lo` up differs. -/
def OnlyBytes (lo n : Nat) (s t : State) : Prop := t = { s with mem := t.mem } ∧ SameMemoryOutside lo n s t

/-- Nothing but the pixel buffer and the redraw flag differs. -/
def OnlyDisplay (s t : State) : Prop := t = { s with pix := t.pix, draw := t.draw } ∧ SameMemory s t

/-- Nothing but the pixel buffer, the redraw flag and the flag register differs. -/
def OnlyDisplayAndFlag (s t : State) : Prop :=
  t = { s with pix := t.pix, draw := t.draw, x := t.x } ∧ SameRegsExcept [regF] s t ∧ SameMemory s t

/-- The error `e` is reported and nothing else changes (40_step_cycle R106). -/
def ReportsOnly (e : StepError) (s t : State) : Prop :=
  t = { s with outcome := .err e, errSeen := true } ∧ SameMemory s t

/-! ### Results -/

/-- `x[r]` receives the number `v`; nothing else changes. -/
def WritesReg (r : Reg) (v : Nat) (s t : State) : Prop :=
  (t.reg r).toNat = v ∧ SameRegsExcept [r] s t ∧ OnlyRegs s t

/-- `x[r]` receives the number `v` and `x[0xF]` the flag; where `r` is 0xF the result remains
(42_alu R153). Nothing else changes. -/
def WritesRegAndFlag (r : Reg) (v : Int) (flag : Prop) (s t : State) : Prop :=
  ((t.reg r).toNat : Int) = v ∧
  (r ≠ regF → (flag → t.reg regF = 1) ∧ (¬flag → t.reg regF = 0)) ∧
  SameRegsExcept [r, regF] s t ∧ OnlyRegs s t

/-- The pc moves on by 2 modulo 65536 if the condition holds and stays otherwise; nothing else changes. -/
def SkipsIf (b : Prop) (s t : State) : Prop :=
  (b → t.pc.toNat = (s.pc.toNat + 2) % 65536) ∧ (¬b → t.pc = s.pc) ∧ OnlyPc s t

/-! ### Drawing, as a whole (44_display R191 to R193) -/

/-- The rows a DXYN draws: `min(N, H - y0)`. -/
def rowsDrawn (s : State) (y : Reg) (n : BitVec 4) : Nat := min n.toNat (s.cfg.displayH - (s.reg y).toNat % s.cfg.displayH)

/-- The sprite bit of column `j` of a byte under the machine's SPRITE_MSB_LEFT (R192). -/
def bitOfColumn (s : State) (b : Byte) (j : Nat) : Bool :=
  if s.cfg.spriteMsbLeft then b.getLsbD (7 - j) else b.getLsbD j

/-- The pixel (r, c) lies under a drawn, unclipped sprite bit of 1 of DXYN (R193 (c)). -/
def Covered (s : State) (x y : Reg) (n : BitVec 4) (r c : Nat) : Prop :=
  let x0 := (s.reg x).toNat % s.cfg.displayW
  let y0 := (s.reg y).toNat % s.cfg.displayH
  y0 ≤ r ∧ r < y0 + rowsDrawn s y n ∧ x0 ≤ c ∧ c < min (x0 + 8) s.cfg.displayW ∧
    bitOfColumn s (s.peek (s.index.toNat + (r - y0))) (c - x0) = true

/-- Every sprite byte that DXYN draws lies in memory (R191). -/
def SpriteInMemory (s : State) (y : Reg) (n : BitVec 4) : Prop :=
  rowsDrawn s y n = 0 ∨ s.index.toNat + rowsDrawn s y n - 1 ≤ 0xFFF

/-! ### The spec's tables -/

/-- The registers an instruction may write (10_state R22, R23). -/
def mayWriteReg (i : Instr) (r : Reg) : Prop :=
  match i with
  | .ldImm x _ | .addImm x _ | .ldReg x _ | .orReg x _ | .andReg x _ | .xorReg x _ | .rnd x _
  | .ldVxDt x | .ldVxK x => r = x
  | .addReg x _ | .sub x _ | .shr x _ | .subn x _ | .shl x _ => r = x ∨ r = regF
  | .drw _ _ _ => r = regF
  | .ldRegs x => r ≤ x
  | .cls | .ret | .jp _ | .call _ | .seImm _ _ | .sneImm _ _ | .seReg _ _ | .sneReg _ _ | .ldI _
  | .jpV0 _ | .skp _ | .sknp _ | .ldDtVx _ | .ldStVx _ | .addI _ | .ldF _ | .ldB _ | .stRegs _ => False

/-- The error an instruction raises in a state: the conditions of 60_exceptions R250. -/
def Raises (i : Instr) (s : State) (e : StepError) : Prop :=
  match i with
  | .ret => s.sp.val = 0 ∧ e = .stackUnderflow
  | .call _ => s.sp.val = 16 ∧ e = .stackOverflow
  | .drw _ y n => ¬SpriteInMemory s y n ∧ e = .addressError s.index.toNat
  | .ldB _ => s.index.toNat + 2 > 0xFFF ∧ e = .addressError s.index.toNat
  | .stRegs x | .ldRegs x => s.index.toNat + x.val > 0xFFF ∧ e = .addressError s.index.toNat
  | .skp x | .sknp x => (s.reg x).toNat > 15 ∧ e = .keyIndexError (s.reg x)
  | .cls | .jp _ | .seImm _ _ | .sneImm _ _ | .seReg _ _ | .sneReg _ _ | .ldImm _ _ | .addImm _ _
  | .ldReg _ _ | .orReg _ _ | .andReg _ _ | .xorReg _ _ | .addReg _ _ | .sub _ _ | .shr _ _ | .subn _ _
  | .shl _ _ | .ldI _ | .jpV0 _ | .rnd _ _ | .ldVxDt _ | .ldDtVx _ | .ldStVx _ | .addI _ | .ldVxK _
  | .ldF _ => False

/-- The pc an instruction leaves, the pc at entry being A + 2 (10_state R25). -/
def pcAfter (i : Instr) (s : State) : Word :=
  match i with
  | .ret => if h : s.sp.val = 0 then s.pc else s.stack[s.sp.val - 1]'(by have := s.sp.isLt; simp; omega)
  | .jp nnn => BitVec.ofNat 16 nnn.toNat
  | .call nnn => if s.sp.val = 16 then s.pc else BitVec.ofNat 16 nnn.toNat
  | .seImm x nn => if s.reg x = nn then s.pc + 2 else s.pc
  | .sneImm x nn => if s.reg x ≠ nn then s.pc + 2 else s.pc
  | .seReg x y => if s.reg x = s.reg y then s.pc + 2 else s.pc
  | .sneReg x y => if s.reg x ≠ s.reg y then s.pc + 2 else s.pc
  | .jpV0 nnn => BitVec.ofNat 16 ((s.reg 0).toNat + nnn.toNat)
  | .skp x => if h : (s.reg x).toNat < 16 then (if s.key[(s.reg x).toNat] = true then s.pc + 2 else s.pc) else s.pc
  | .sknp x => if h : (s.reg x).toNat < 16 then (if s.key[(s.reg x).toNat] = false then s.pc + 2 else s.pc) else s.pc
  | .ldVxK _ => if ∀ k : Fin 16, s.key.get k = false then s.pc - 2 else s.pc
  | .cls | .ldImm _ _ | .addImm _ _ | .ldReg _ _ | .orReg _ _ | .andReg _ _ | .xorReg _ _ | .addReg _ _
  | .sub _ _ | .shr _ _ | .subn _ _ | .shl _ _ | .ldI _ | .rnd _ _ | .drw _ _ _ | .ldVxDt _ | .ldDtVx _
  | .ldStVx _ | .addI _ | .ldF _ | .ldB _ | .stRegs _ | .ldRegs _ => s.pc

/-! ### Invariants -/

/-- Memory is in canonical form: addresses rising, all below 0x1000, no cell equal to its reset byte. -/
def State.MemOk (s : State) : Prop := Memory.wf s.cfg.resetByte s.mem = true

/-- The pixel buffer has DISPLAY_H rows of DISPLAY_W cells (10_state R30). -/
def State.PixelsOk (s : State) : Prop := Pixels.sized s.cfg.displayW s.cfg.displayH s.pix = true

/-- The bounds of 10_state R38 on addresses: `pc <= 0x10FE`, and no stack entry above 0x1000, the largest
return address a fetched call can push. -/
def State.AddressesOk (s : State) : Prop :=
  s.pc.toNat ≤ 0x10FE ∧ ∀ k : Fin 16, (s.stack.get k).toNat ≤ 0x1000

/-- The fault record holds whenever the latest Step reported an error (60_exceptions R260). -/
def State.ErrorsRecorded (s : State) : Prop := ∀ e, s.outcome = .err e → s.errSeen = true

/-! ### Runs -/

/-- No Step of the run so far reported an error: the premise of a claim about a program (R260). -/
def State.Clean (s : State) : Prop := s.errSeen = false

/-- At most `k` Steps, ending after the first that reports an error (92_eei_decisions D20 (i), D4). -/
def runToError : Nat → State → Result
  | 0, s => .next s
  | k + 1, s =>
    match step s with
    | .next t => match t.outcome with
      | .ok => runToError k t
      | .err _ => .next t
    | .fault f => .fault f
    | .refused r => .refused r

/-- The state after phases (a), (b) and (d) of a Step: what its instruction starts from (40_step_cycle
R100). -/
def stepEntry (s : State) : State :=
  { s with
    dt := decay s.dt s.input.ticks
    st := decay s.st s.input.ticks
    tLast := s.tLast + s.input.ticks
    key := s.input.keysIn
    rnd := s.input.rnd
    outcome := .ok
    loadOpen := false
    pending := s.pending.tail
    stepNo := s.stepNo + 1
    pc := s.pc + 2 }

/-- The instruction the next Step will execute, if the fetch succeeds and the word is one (R103, R104). -/
def fetched (s : State) : Option Instr :=
  if s.pc.toNat ≤ 0xFFE then
    match decode [s.peek s.pc.toNat, s.peek (s.pc.toNat + 1)] with
    | .ok (i, _) => some i
    | .error _ => none
  else none

/-- Every element of 10_state R36's table has its value after reset, under the parameters `p`. -/
def HasResetValues (p : Config.Params) (s : State) : Prop :=
  s.cfg = p ∧
  (∀ a, a < p.fontBase.toNat ∨ p.fontBase.toNat + 80 ≤ a → s.peek a = 0) ∧
  (∀ k : Fin 80, s.peek (p.fontBase.toNat + k.val) = p.fontData.get k) ∧
  (∀ r, s.reg r = 0) ∧ s.index = 0 ∧ s.pc = 0x200 ∧ s.sp = 0 ∧ (∀ k, s.stack.get k = 0) ∧
  s.dt = 0 ∧ s.st = 0 ∧ (∀ k, s.key.get k = false) ∧ s.PixelsOk ∧ (∀ r c, pixelAt s.pix r c = false) ∧
  s.draw = true ∧ s.lastTick = Config.tLastReset

end Sys2Proof.Machine
end

