-- ==== Sys2Proof/Certificates/Slice0/Obligations.lean ====
section
/-!
DEFINITION. The statements for the provers. Each docstring names the rule of spec/ it formalises. The frames
and results they are stated in are in Safety.lean. At the entry of an instruction `pc` is its own address
plus 2 (40_step_cycle R104).
-/

open Sys2Proof Sys2Proof.Machine

/-! ### Encoding -/

/-- 30_encoding R84, R90: decoding an encoded instruction gives it back, every operand at every value, and
leaves the bytes after it alone. -/
def Obligations.DecodeUndoesEncode : Prop :=
  ∀ i : Instr, decodeWord (encode i) = .ok i ∧
    ∀ rest, decode (encodeBytes i ++ rest) = .ok (i, rest)

/-- 30_encoding R84, R85, R90: a word that decodes has one meaning, and encoding it gives the word back. -/
def Obligations.EncodeUndoesDecode : Prop :=
  ∀ (op : Word) (i : Instr), decodeWord op = .ok i → encode i = op

/-- 40_step_cycle R104, 30_encoding R84: decode selects the unique row with `op & mask == match`, or none. -/
def Obligations.DecodeSelectsTheUniqueRow : Prop :=
  opcodeTable.length = 34 ∧
  ∀ op : Word,
    match decodeWord op with
    | .ok i => rowOf i ∈ opcodeTable ∧ (rowOf i).selects op = true ∧
        ∀ r ∈ opcodeTable, r.selects op = true → r = rowOf i
    | .error _ => ∀ r ∈ opcodeTable, r.selects op = false

/-- 30_encoding R86: the unrecognized words are exactly those of the six classes. -/
def Obligations.UnrecognizedWordsByClass : Prop :=
  ∀ op : Word,
    (decodeWord op = .error (.unrecognized .zero) ↔
      fieldT op = 0x0 ∧ fieldNNN op ≠ 0x0E0 ∧ fieldNNN op ≠ 0x0EE) ∧
    (decodeWord op = .error (.unrecognized .five) ↔ fieldT op = 0x5 ∧ fieldN op ≠ 0) ∧
    (decodeWord op = .error (.unrecognized .eight) ↔
      fieldT op = 0x8 ∧ fieldN op ∈ [0x8, 0x9, 0xA, 0xB, 0xC, 0xD, 0xF]) ∧
    (decodeWord op = .error (.unrecognized .nine) ↔ fieldT op = 0x9 ∧ fieldN op ≠ 0) ∧
    (decodeWord op = .error (.unrecognized .e) ↔ fieldT op = 0xE ∧ fieldNN op ∉ [0x9E, 0xA1]) ∧
    (decodeWord op = .error (.unrecognized .f) ↔
      fieldT op = 0xF ∧ fieldNN op ∉ [0x07, 0x0A, 0x15, 0x18, 0x1E, 0x29, 0x33, 0x55, 0x65]) ∧
    decodeWord op ≠ .error .truncated

/-- 30_encoding R84, R90, 95_test_vectors: words written out from the patterns decode to what they stand for. -/
def Obligations.SampleWordsDecode : Prop :=
  decodeWord 0x00E0 = .ok .cls ∧ decodeWord 0x00EE = .ok .ret ∧ decodeWord 0x1204 = .ok (.jp 0x204) ∧
  decodeWord 0x6005 = .ok (.ldImm 0 0x05) ∧ decodeWord 0x8014 = .ok (.addReg 0 1) ∧
  decodeWord 0xA300 = .ok (.ldI 0x300) ∧ decodeWord 0xD125 = .ok (.drw 1 2 5) ∧
  decodeWord 0xE49E = .ok (.skp 4) ∧ decodeWord 0xF265 = .ok (.ldRegs 2) ∧
  decodeWord 0x0000 = .error (.unrecognized .zero)

/-! ### Register, arithmetic, logic, shift, random -/

/-- 42_alu R140, R142: 6XNN stores NN, 8XY0 copies `x[Y]`, into `x[X]`; nothing else changes. -/
def Obligations.LoadImmediateAndCopy : Prop :=
  (∀ op, fieldT op = 0x6 → decodeWord op = .ok (.ldImm (fieldX op) (fieldNN op))) ∧
  (∀ op, fieldT op = 0x8 → fieldN op = 0x0 → decodeWord op = .ok (.ldReg (fieldX op) (fieldY op))) ∧
  (∀ s x nn, ∃ t, exec (.ldImm x nn) s = .next t ∧ WritesReg x nn.toNat s t) ∧
  (∀ s x y, ∃ t, exec (.ldReg x y) s = .next t ∧ WritesReg x (s.reg y).toNat s t)

/-- 42_alu R141: 7XNN adds NN modulo 256 and sets no flag. -/
def Obligations.AddImmediateWraps : Prop :=
  (∀ op, fieldT op = 0x7 → decodeWord op = .ok (.addImm (fieldX op) (fieldNN op))) ∧
  (∀ s x nn, ∃ t, exec (.addImm x nn) s = .next t ∧
    WritesReg x (((s.reg x).toNat + nn.toNat) % 256) s t)

/-- 42_alu R143, R144, R145: OR, AND, XOR of the two registers, bit by bit, into `x[X]`; no flag. -/
def Obligations.LogicLeavesTheFlag : Prop :=
  (∀ op, fieldT op = 0x8 → fieldN op = 0x1 → decodeWord op = .ok (.orReg (fieldX op) (fieldY op))) ∧
  (∀ op, fieldT op = 0x8 → fieldN op = 0x2 → decodeWord op = .ok (.andReg (fieldX op) (fieldY op))) ∧
  (∀ op, fieldT op = 0x8 → fieldN op = 0x3 → decodeWord op = .ok (.xorReg (fieldX op) (fieldY op))) ∧
  (∀ s x y, ∃ t, exec (.orReg x y) s = .next t ∧
    (∀ k, (t.reg x).getLsbD k = ((s.reg x).getLsbD k || (s.reg y).getLsbD k)) ∧
    SameRegsExcept [x] s t ∧ OnlyRegs s t) ∧
  (∀ s x y, ∃ t, exec (.andReg x y) s = .next t ∧
    (∀ k, (t.reg x).getLsbD k = ((s.reg x).getLsbD k && (s.reg y).getLsbD k)) ∧
    SameRegsExcept [x] s t ∧ OnlyRegs s t) ∧
  (∀ s x y, ∃ t, exec (.xorReg x y) s = .next t ∧
    (∀ k, (t.reg x).getLsbD k = ((s.reg x).getLsbD k ^^ (s.reg y).getLsbD k)) ∧
    SameRegsExcept [x] s t ∧ OnlyRegs s t)

/-- 42_alu R146: 8XY4 stores `(a + b) mod 256`, flag 1 exactly where `a + b > 255`; with X = 0xF the sum
remains. -/
def Obligations.AddRegistersWithCarry : Prop :=
  (∀ op, fieldT op = 0x8 → fieldN op = 0x4 → decodeWord op = .ok (.addReg (fieldX op) (fieldY op))) ∧
  (∀ s x y, ∃ t, exec (.addReg x y) s = .next t ∧
    WritesRegAndFlag x ((((s.reg x).toNat : Int) + (s.reg y).toNat) % 256)
      ((s.reg x).toNat + (s.reg y).toNat > 255) s t)

/-- 42_alu R147, R149: 8XY5 stores `(a - b) mod 256` with flag `a > b`; 8XY7 stores `(b - a) mod 256` with
flag `a < b`; both strict, so equal operands give flag 0. -/
def Obligations.SubtractWithStrictFlag : Prop :=
  (∀ op, fieldT op = 0x8 → fieldN op = 0x5 → decodeWord op = .ok (.sub (fieldX op) (fieldY op))) ∧
  (∀ op, fieldT op = 0x8 → fieldN op = 0x7 → decodeWord op = .ok (.subn (fieldX op) (fieldY op))) ∧
  (∀ s x y, ∃ t, exec (.sub x y) s = .next t ∧
    WritesRegAndFlag x ((((s.reg x).toNat : Int) - (s.reg y).toNat) % 256)
      ((s.reg x).toNat > (s.reg y).toNat) s t) ∧
  (∀ s x y, ∃ t, exec (.subn x y) s = .next t ∧
    WritesRegAndFlag x ((((s.reg y).toNat : Int) - (s.reg x).toNat) % 256)
      ((s.reg x).toNat < (s.reg y).toNat) s t)

/-- 42_alu R148, R150: the shifts read `x[Y]` and write `x[X]`, by one position, zero filled; the bit shifted
out is the flag. -/
def Obligations.ShiftsReadYWriteX : Prop :=
  (∀ op, fieldT op = 0x8 → fieldN op = 0x6 → decodeWord op = .ok (.shr (fieldX op) (fieldY op))) ∧
  (∀ op, fieldT op = 0x8 → fieldN op = 0xE → decodeWord op = .ok (.shl (fieldX op) (fieldY op))) ∧
  (∀ s x y, ∃ t, exec (.shr x y) s = .next t ∧
    WritesRegAndFlag x ((s.reg y).toNat / 2 : Nat) ((s.reg y).toNat % 2 = 1) s t) ∧
  (∀ s x y, ∃ t, exec (.shl x y) s = .next t ∧
    WritesRegAndFlag x ((s.reg y).toNat * 2 % 256 : Nat) ((s.reg y).toNat / 128 = 1) s t)

/-- 42_alu R153: the table of aliasing with the flag register, column by column, for each of the five
instructions: with neither X nor Y = F the result and the flag; with Y = F the old flag is the operand;
with X = F the result replaces the flag; with X = Y = F the result of the old flag with itself. The spec
derives the table from R146 to R150 and R10, and its columns with X = F or Y = F rest on decision D7
(operands latched first, flag before result): log 11, DESIGN CHOICE. -/
def Obligations.FlagRegisterAliasing : Prop :=
  ∀ (s : State) (r q : Reg), r ≠ regF → q ≠ regF →
    let f := (s.reg regF).toNat
    let a := (s.reg r).toNat
    let b := (s.reg q).toNat
    (∃ t, exec (.addReg r q) s = .next t ∧ (t.reg r).toNat = (a + b) % 256 ∧
      (t.reg regF).toNat = if a + b > 255 then 1 else 0) ∧
    (∃ t, exec (.sub r q) s = .next t ∧ ((t.reg r).toNat : Int) = ((a : Int) - b) % 256 ∧
      (t.reg regF).toNat = if a > b then 1 else 0) ∧
    (∃ t, exec (.shr r q) s = .next t ∧ (t.reg r).toNat = b / 2 ∧ (t.reg regF).toNat = b % 2) ∧
    (∃ t, exec (.subn r q) s = .next t ∧ ((t.reg r).toNat : Int) = ((b : Int) - a) % 256 ∧
      (t.reg regF).toNat = if a < b then 1 else 0) ∧
    (∃ t, exec (.shl r q) s = .next t ∧ (t.reg r).toNat = b * 2 % 256 ∧ (t.reg regF).toNat = b / 128) ∧
    (∃ t, exec (.addReg r regF) s = .next t ∧ (t.reg r).toNat = (a + f) % 256 ∧
      (t.reg regF).toNat = if a + f > 255 then 1 else 0) ∧
    (∃ t, exec (.sub r regF) s = .next t ∧ ((t.reg r).toNat : Int) = ((a : Int) - f) % 256 ∧
      (t.reg regF).toNat = if a > f then 1 else 0) ∧
    (∃ t, exec (.shr r regF) s = .next t ∧ (t.reg r).toNat = f / 2 ∧ (t.reg regF).toNat = f % 2) ∧
    (∃ t, exec (.subn r regF) s = .next t ∧ ((t.reg r).toNat : Int) = ((f : Int) - a) % 256 ∧
      (t.reg regF).toNat = if a < f then 1 else 0) ∧
    (∃ t, exec (.shl r regF) s = .next t ∧ (t.reg r).toNat = f * 2 % 256 ∧ (t.reg regF).toNat = f / 128) ∧
    (∃ t, exec (.addReg regF r) s = .next t ∧ (t.reg regF).toNat = (f + a) % 256) ∧
    (∃ t, exec (.sub regF r) s = .next t ∧ ((t.reg regF).toNat : Int) = ((f : Int) - a) % 256) ∧
    (∃ t, exec (.shr regF r) s = .next t ∧ (t.reg regF).toNat = a / 2) ∧
    (∃ t, exec (.subn regF r) s = .next t ∧ ((t.reg regF).toNat : Int) = ((a : Int) - f) % 256) ∧
    (∃ t, exec (.shl regF r) s = .next t ∧ (t.reg regF).toNat = a * 2 % 256) ∧
    (∃ t, exec (.addReg regF regF) s = .next t ∧ (t.reg regF).toNat = 2 * f % 256) ∧
    (∃ t, exec (.sub regF regF) s = .next t ∧ t.reg regF = 0) ∧
    (∃ t, exec (.shr regF regF) s = .next t ∧ (t.reg regF).toNat = f / 2) ∧
    (∃ t, exec (.subn regF regF) s = .next t ∧ t.reg regF = 0) ∧
    (∃ t, exec (.shl regF regF) s = .next t ∧ (t.reg regF).toNat = f * 2 % 256)

/-- 42_alu R151: CXNN stores the Step's random byte under the mask NN, bit by bit, whatever the byte is; no
bit outside the mask is ever set; no flag. In a Step the random byte is the host's input `rnd`
(`stepEntry`). -/
def Obligations.RandomByteIsMasked : Prop :=
  (∀ op, fieldT op = 0xC → decodeWord op = .ok (.rnd (fieldX op) (fieldNN op))) ∧
  (∀ s, (stepEntry s).rnd = s.input.rnd) ∧
  (∀ s x nn, ∃ t, exec (.rnd x nn) s = .next t ∧
    (∀ k, (t.reg x).getLsbD k = (s.rnd.getLsbD k && nn.getLsbD k)) ∧ t.reg x &&& ~~~nn = 0 ∧
    SameRegsExcept [x] s t ∧ OnlyRegs s t)

/-! ### Control transfer -/

/-- 41_flow R121, R127: 1NNN goes to NNN; BNNN goes to `x[0] + NNN`, not reduced modulo 4096; neither reports an
error, and a target beyond 0xFFE makes the next fetch report it. -/
def Obligations.JumpsSetThePc : Prop :=
  (∀ op, fieldT op = 0x1 → decodeWord op = .ok (.jp (fieldNNN op))) ∧
  (∀ op, fieldT op = 0xB → decodeWord op = .ok (.jpV0 (fieldNNN op))) ∧
  (∀ s nnn, ∃ t, exec (.jp nnn) s = .next t ∧ t.pc.toNat = nnn.toNat ∧ OnlyPc s t) ∧
  (∀ s nnn, ∃ t, exec (.jpV0 nnn) s = .next t ∧ t.pc.toNat = (s.reg 0).toNat + nnn.toNat ∧ OnlyPc s t) ∧
  (∀ t : State, t.pc.toNat > 0xFFE → fetch t = .error (.addressError t.pc.toNat))

/-- 41_flow R122: 2NNN pushes the address of the next instruction and goes to NNN; with sixteen entries in
use it reports StackOverflow and is not made. -/
def Obligations.CallPushesOrOverflows : Prop :=
  (∀ op, fieldT op = 0x2 → decodeWord op = .ok (.call (fieldNNN op))) ∧
  (∀ (s : State) nnn (h : s.sp.val < 16), ∃ t, exec (.call nnn) s = .next t ∧
    t.stack.get ⟨s.sp.val, h⟩ = s.pc ∧ (∀ k, k.val ≠ s.sp.val → t.stack.get k = s.stack.get k) ∧
    t.sp.val = s.sp.val + 1 ∧ t.pc.toNat = nnn.toNat ∧ OnlyStackAndPc s t) ∧
  (∀ s nnn, s.sp.val = 16 → ∃ t, exec (.call nnn) s = .next t ∧ ReportsOnly .stackOverflow s t)

/-- 41_flow R120: 00EE pops the last entry into the pc and leaves the entry's value in place; with no entry in
use it reports StackUnderflow. The target is not checked: a bad one fails at the next fetch. -/
def Obligations.ReturnPopsOrUnderflows : Prop :=
  decodeWord 0x00EE = .ok .ret ∧
  (∀ (s : State) (k : Fin 16), s.sp.val = k.val + 1 → ∃ t, exec .ret s = .next t ∧
    t.pc = s.stack.get k ∧ t.sp.val = k.val ∧ t.stack = s.stack ∧ OnlyStackAndPc s t) ∧
  (∀ s, s.sp.val = 0 → ∃ t, exec .ret s = .next t ∧ ReportsOnly .stackUnderflow s t) ∧
  (∀ t : State, t.pc.toNat > 0xFFE → fetch t = .error (.addressError t.pc.toNat))

/-- 41_flow R128: after a call at address A with `sp = d < 16`, whatever Steps follow, a return executed with
`sp = d + 1` goes to A + 2 and leaves `sp = d`, provided no call in between executed with `sp = d`. -/
def Obligations.ReturnComesBackAfterTheCall : Prop :=
  ∀ (s : State) (nnn : BitVec 12) (n : Nat) (f : Nat → State),
    fetched s = some (.call nnn) → s.sp.val < 16 → step s = .next (f 0) →
    (∀ i, i < n → step (f i) = .next (f (i + 1))) →
    (∀ i, i < n → ∀ a, fetched (f i) = some (.call a) → (f i).sp.val ≠ s.sp.val) →
    fetched (f n) = some .ret → (f n).sp.val = s.sp.val + 1 →
    ∃ v, step (f n) = .next v ∧ v.pc = s.pc + 2 ∧ v.sp = s.sp

/-- 41_flow R123 to R126: the four register skips, on equality and difference with an immediate and with a
register; a skip to an address beyond 0xFFE makes the next fetch report an error. -/
def Obligations.SkipsCompareRegisters : Prop :=
  (∀ op, fieldT op = 0x3 → decodeWord op = .ok (.seImm (fieldX op) (fieldNN op))) ∧
  (∀ op, fieldT op = 0x4 → decodeWord op = .ok (.sneImm (fieldX op) (fieldNN op))) ∧
  (∀ op, fieldT op = 0x5 → fieldN op = 0 → decodeWord op = .ok (.seReg (fieldX op) (fieldY op))) ∧
  (∀ op, fieldT op = 0x9 → fieldN op = 0 → decodeWord op = .ok (.sneReg (fieldX op) (fieldY op))) ∧
  (∀ op, fieldT op = 0x5 ∨ fieldT op = 0x9 → fieldN op ≠ 0 → ∃ c, decodeWord op = .error (.unrecognized c)) ∧
  (∀ s x nn, ∃ t, exec (.seImm x nn) s = .next t ∧ SkipsIf (s.reg x = nn) s t) ∧
  (∀ s x nn, ∃ t, exec (.sneImm x nn) s = .next t ∧ SkipsIf (s.reg x ≠ nn) s t) ∧
  (∀ s x y, ∃ t, exec (.seReg x y) s = .next t ∧ SkipsIf (s.reg x = s.reg y) s t) ∧
  (∀ s x y, ∃ t, exec (.sneReg x y) s = .next t ∧ SkipsIf (s.reg x ≠ s.reg y) s t) ∧
  (∀ t : State, t.pc.toNat > 0xFFE → fetch t = .error (.addressError t.pc.toNat))

/-! ### Keys and timers -/

/-- 45_keys_timers R210, R211: EX9E skips when the key numbered by the value of `x[X]` is down, EXA1 when it
is not; a value above 15 reports KeyIndexError and skips nothing. -/
def Obligations.SkipsTestKeys : Prop :=
  (∀ op, fieldT op = 0xE → fieldNN op = 0x9E → decodeWord op = .ok (.skp (fieldX op))) ∧
  (∀ op, fieldT op = 0xE → fieldNN op = 0xA1 → decodeWord op = .ok (.sknp (fieldX op))) ∧
  (∀ (s : State) (x : Reg) (k : Fin 16), (s.reg x).toNat = k.val →
    (∃ t, exec (.skp x) s = .next t ∧ SkipsIf (s.key.get k = true) s t) ∧
    (∃ t, exec (.sknp x) s = .next t ∧ SkipsIf (s.key.get k = false) s t)) ∧
  (∀ (s : State) (x : Reg), (s.reg x).toNat > 15 →
    (∃ t, exec (.skp x) s = .next t ∧ ReportsOnly (.keyIndexError (s.reg x)) s t) ∧
    (∃ t, exec (.sknp x) s = .next t ∧ ReportsOnly (.keyIndexError (s.reg x)) s t))

/-- 45_keys_timers R212: FX0A with no key down goes back to its own address and writes no register; otherwise
`x[X]` receives the lowest-numbered key that is down and the pc stays past the instruction. -/
def Obligations.WaitForKeyReplaysOrReads : Prop :=
  (∀ op, fieldT op = 0xF → fieldNN op = 0x0A → decodeWord op = .ok (.ldVxK (fieldX op))) ∧
  (∀ (s : State) (x : Reg), (∀ k, s.key.get k = false) →
    ∃ t, exec (.ldVxK x) s = .next t ∧ t.pc.toNat = (s.pc.toNat + 65536 - 2) % 65536 ∧ OnlyPc s t) ∧
  (∀ (s : State) (x : Reg) (k : Fin 16), s.key.get k = true → (∀ j, j < k → s.key.get j = false) →
    ∃ t, exec (.ldVxK x) s = .next t ∧ WritesReg x k.val s t)

/-- 45_keys_timers R213, R214, R215: FX07 reads the delay timer, FX15 writes it, FX18 writes the sound timer;
the tick phase is not touched. FX07 reads what this Step's ticks left (40_step_cycle R101, 60_exceptions
R266); that a Step's tick count is its lined-up input or a free value is the model's, log 2. -/
def Obligations.TimerInstructionsMoveOneByte : Prop :=
  (∀ op, fieldT op = 0xF → fieldNN op = 0x07 → decodeWord op = .ok (.ldVxDt (fieldX op))) ∧
  (∀ op, fieldT op = 0xF → fieldNN op = 0x15 → decodeWord op = .ok (.ldDtVx (fieldX op))) ∧
  (∀ op, fieldT op = 0xF → fieldNN op = 0x18 → decodeWord op = .ok (.ldStVx (fieldX op))) ∧
  (∀ s x, ∃ t, exec (.ldVxDt x) s = .next t ∧ WritesReg x s.dt.toNat s t) ∧
  (∀ s, (stepEntry s).dt.toNat = s.dt.toNat - s.input.ticks) ∧
  (∀ s x, ∃ t, exec (.ldDtVx x) s = .next t ∧ t.dt = s.reg x ∧ t = { s with dt := t.dt } ∧ SameMemory s t) ∧
  (∀ s x, ∃ t, exec (.ldStVx x) s = .next t ∧ t.st = s.reg x ∧ t = { s with st := t.st } ∧ SameMemory s t)

/-- 60_exceptions R266, which the spec derives from R265: the source's loop, given enough rounds, applies `n = max(0, ceil(e / T_TICK) - 1)`
ticks for an elapsed time e: the timers fall to `max(DT - n, 0)` and `max(ST - n, 0)`, the reference time
grows by n intervals, and the residue lies in (0, T_TICK] when e > 0. That `t_last` is held as a count of
intervals is the model's, log 4. What a Step makes of it: StepAtTheClockTicksAsTheLoop. -/
def Obligations.TickLoopAppliesTheCount : Prop :=
  ∀ (now : Int) (s : State) (fuel : Nat),
    let e := now - s.lastTick
    let n := s.ticksDue now
    let t := tickLoop fuel now s
    (n = 0 ↔ e ≤ Config.tTick) ∧
    (∀ k : Nat, 1 ≤ k → (n = k ↔ k * Config.tTick < e ∧ e ≤ (k + 1) * Config.tTick)) ∧
    (n ≤ fuel →
      t = { s with dt := t.dt, st := t.st, tLast := t.tLast } ∧
      t.dt.toNat = s.dt.toNat - n ∧ t.st.toNat = s.st.toNat - n ∧
      t.lastTick = s.lastTick + n * Config.tTick ∧
      (e > 0 → 0 < now - t.lastTick ∧ now - t.lastTick ≤ Config.tTick) ∧
      (e ≤ 0 → t = s))

/-- 40_step_cycle R101, 60_exceptions R266 to R268: a Step lowers each timer by the Step's ticks, never below
zero, unless it executes FX15 (for DT) or FX18 (for ST), which write `x[X]` after the ticks; the reference
time grows by the same ticks. -/
def Obligations.TimersFallByTheTicks : Prop :=
  ∀ s : State, ∃ t, step s = .next t ∧ t.tLast = s.tLast + s.input.ticks ∧
    ((∀ x, fetched s ≠ some (.ldDtVx x)) → t.dt.toNat = s.dt.toNat - s.input.ticks) ∧
    (∀ x, fetched s = some (.ldDtVx x) → t.dt = s.reg x) ∧
    ((∀ x, fetched s ≠ some (.ldStVx x)) → t.st.toNat = s.st.toNat - s.input.ticks) ∧
    (∀ x, fetched s = some (.ldStVx x) → t.st = s.reg x)

/-! ### Index register and memory -/

/-- 43_index_memory R170, R171: ANNN sets the index register; FX1E adds modulo 65536, no flag. -/
def Obligations.IndexLoadAndAdd : Prop :=
  (∀ op, fieldT op = 0xA → decodeWord op = .ok (.ldI (fieldNNN op))) ∧
  (∀ op, fieldT op = 0xF → fieldNN op = 0x1E → decodeWord op = .ok (.addI (fieldX op))) ∧
  (∀ s nnn, ∃ t, exec (.ldI nnn) s = .next t ∧ t.index.toNat = nnn.toNat ∧ OnlyIndex s t) ∧
  (∀ s x, ∃ t, exec (.addI x) s = .next t ∧
    t.index.toNat = (s.index.toNat + (s.reg x).toNat) % 65536 ∧ OnlyIndex s t)

/-- 43_index_memory R172: FX29 points the index register at `FONT_BASE + 5 * d`, d being all of `x[X]`, or its
low nibble where FX29_MASK_NIBBLE is set, for every FONT_BASE (the default 0x050 among them) with which
the sum fits the register; no memory is accessed, no flag written. -/
def Obligations.GlyphAddressFromRegister : Prop :=
  (∀ op, fieldT op = 0xF → fieldNN op = 0x29 → decodeWord op = .ok (.ldF (fieldX op))) ∧
  (∀ s x, ∃ t, exec (.ldF x) s = .next t ∧ OnlyIndex s t ∧
    (s.cfg.fontBase.toNat ≤ 0xFB04 → t.index.toNat =
      s.cfg.fontBase.toNat + 5 * if s.cfg.fx29MaskNibble then (s.reg x).toNat % 16 else (s.reg x).toNat))

/-- 43_index_memory R173: FX33 stores hundreds, tens and ones at I, I + 1, I + 2 and nothing else; where a byte
lies above 0xFFF it reports AddressError and writes nothing. -/
def Obligations.StoreDecimalDigits : Prop :=
  (∀ op, fieldT op = 0xF → fieldNN op = 0x33 → decodeWord op = .ok (.ldB (fieldX op))) ∧
  (∀ (s : State) (x : Reg), s.index.toNat + 2 ≤ 0xFFF → ∃ t, exec (.ldB x) s = .next t ∧
    (t.peek s.index.toNat).toNat = (s.reg x).toNat / 100 ∧
    (t.peek (s.index.toNat + 1)).toNat = (s.reg x).toNat / 10 % 10 ∧
    (t.peek (s.index.toNat + 2)).toNat = (s.reg x).toNat % 10 ∧
    OnlyBytes s.index.toNat 3 s t) ∧
  (∀ (s : State) (x : Reg), s.index.toNat + 2 > 0xFFF → ∃ t, exec (.ldB x) s = .next t ∧
    ReportsOnly (.addressError s.index.toNat) s t)

/-- 43_index_memory R174: FX55 stores `x[0]` to `x[X]` at I up and nothing else, I unchanged; where the range
passes 0xFFF it reports AddressError and writes nothing. -/
def Obligations.StoreRegisterRange : Prop :=
  (∀ op, fieldT op = 0xF → fieldNN op = 0x55 → decodeWord op = .ok (.stRegs (fieldX op))) ∧
  (∀ (s : State) (x : Reg), s.index.toNat + x.val ≤ 0xFFF → ∃ t, exec (.stRegs x) s = .next t ∧
    (∀ i : Reg, i ≤ x → t.peek (s.index.toNat + i.val) = s.reg i) ∧
    OnlyBytes s.index.toNat (x.val + 1) s t) ∧
  (∀ (s : State) (x : Reg), s.index.toNat + x.val > 0xFFF → ∃ t, exec (.stRegs x) s = .next t ∧
    ReportsOnly (.addressError s.index.toNat) s t)

/-- 43_index_memory R175: FX65 loads `x[0]` to `x[X]` from I up and changes nothing else; where the range
passes 0xFFF it reports AddressError and loads nothing. FX55 followed by FX65 with the same X and I
restores `x[0]` to `x[X]`, whatever the registers hold in between. -/
def Obligations.LoadRegisterRange : Prop :=
  (∀ op, fieldT op = 0xF → fieldNN op = 0x65 → decodeWord op = .ok (.ldRegs (fieldX op))) ∧
  (∀ (s : State) (x : Reg), s.index.toNat + x.val ≤ 0xFFF → ∃ t, exec (.ldRegs x) s = .next t ∧
    (∀ i : Reg, i ≤ x → t.reg i = s.peek (s.index.toNat + i.val)) ∧
    (∀ i : Reg, x < i → t.reg i = s.reg i) ∧ OnlyRegs s t) ∧
  (∀ (s : State) (x : Reg), s.index.toNat + x.val > 0xFFF → ∃ t, exec (.ldRegs x) s = .next t ∧
    ReportsOnly (.addressError s.index.toNat) s t) ∧
  (∀ (s : State) (x : Reg), s.index.toNat + x.val ≤ 0xFFF → ∃ t, exec (.stRegs x) s = .next t ∧
    ∀ regs : Vector Byte 16, ∃ u, exec (.ldRegs x) { t with x := regs } = .next u ∧
      ∀ i : Reg, i ≤ x → u.reg i = s.reg i)

/-- 20_memory R53, R55: a read returns the byte at its address, and that is the byte last written there; a write
leaves every other byte alone; an access above 0xFFF is an address error and writes nothing. -/
def Obligations.ReadsSeeTheLastWrite : Prop :=
  (∀ (s : State) (a : Nat) (v : Byte), a ≤ 0xFFF → memRead1 a s = .ok (s.peek a) ∧
    ∃ t, memWrite1 a v s = .ok t ∧ t = { s with mem := t.mem } ∧ memRead1 a t = .ok v ∧
      ∀ b, b ≠ a → memRead1 b t = memRead1 b s) ∧
  (∀ (s : State) (a : Nat) (v : Byte), a > 0xFFF →
    memWrite1 a v s = .error (.addressError a) ∧ memRead1 a s = .error (.addressError a))

/-! ### Display -/

/-- 44_display R190: 00E0 clears every pixel, sets `draw` where CLS_SETS_REDRAW is set, and changes nothing
else. -/
def Obligations.ClearScreenClearsEveryPixel : Prop :=
  decodeWord 0x00E0 = .ok .cls ∧
  ∀ s, ∃ t, exec .cls s = .next t ∧ t.PixelsOk ∧ (∀ r c, pixelAt t.pix r c = false) ∧
    (s.cfg.clsSetsRedraw = true → t.draw = true) ∧
    (s.cfg.clsSetsRedraw = false → t.draw = s.draw) ∧ OnlyDisplay s t

/-- 44_display R191: DXYN's loops, as a whole. A pixel is toggled exactly where a drawn, unclipped sprite
bit of 1 lies on it; the flag is 1 exactly where such a bit lies on a pixel that was set; `draw` is set;
nothing else changes. Where a byte to be drawn lies above 0xFFF nothing changes but the report. R191 gives the
bit order of SPRITE_MSB_LEFT = true; the statement also covers false (R192), for which the plain reverse
order, bit j for column j, is the model's reading: log 7, DEDUCED. -/
def Obligations.DrawTogglesTheCoveredPixels : Prop :=
  (∀ op, fieldT op = 0xD → decodeWord op = .ok (.drw (fieldX op) (fieldY op) (fieldN op))) ∧
  (∀ (s : State) (x y : Reg) (n : BitVec 4), s.PixelsOk → SpriteInMemory s y n →
    ∃ t, exec (.drw x y n) s = .next t ∧
      (∀ r c, r < s.cfg.displayH → c < s.cfg.displayW → (pixelAt t.pix r c ≠ pixelAt s.pix r c ↔ Covered s x y n r c)) ∧
      ((∃ r c, Covered s x y n r c ∧ pixelAt s.pix r c = true) → t.reg regF = 1) ∧
      ((¬∃ r c, Covered s x y n r c ∧ pixelAt s.pix r c = true) → t.reg regF = 0) ∧
      t.draw = true ∧ OnlyDisplayAndFlag s t) ∧
  (∀ (s : State) (x y : Reg) (n : BitVec 4), ¬SpriteInMemory s y n →
    ∃ t, exec (.drw x y n) s = .next t ∧ ReportsOnly (.addressError s.index.toNat) s t)

/-- 44_display R193: two DXYN of the same sprite at the same place, no other write to the buffer between them:
the buffer returns to what it was; the second reports a collision exactly where the first turned a pixel on,
the first exactly where a sprite bit lay on a set pixel; and the first changed exactly the covered pixels.
The spec derives these laws from R191; under SPRITE_MSB_LEFT = false (R192) which pixels are covered rests
on the plain reverse bit order, the model's reading: log 7, DEDUCED. -/
def Obligations.DrawingTwiceRestoresTheBuffer : Prop :=
  ∀ (s : State) (x y : Reg) (n : BitVec 4), s.PixelsOk → SpriteInMemory s y n →
    ∃ t, exec (.drw x y n) s = .next t ∧
      (t.reg regF = 1 ↔ ∃ r c, Covered s x y n r c ∧ pixelAt s.pix r c = true) ∧
      (∀ r c, r < s.cfg.displayH → c < s.cfg.displayW → (pixelAt t.pix r c ≠ pixelAt s.pix r c ↔ Covered s x y n r c)) ∧
      ∀ u : State, u.pix = t.pix → u.cfg = s.cfg → u.index = s.index →
        (u.reg x).toNat % s.cfg.displayW = (s.reg x).toNat % s.cfg.displayW →
        (u.reg y).toNat % s.cfg.displayH = (s.reg y).toNat % s.cfg.displayH →
        (∀ i, i < rowsDrawn s y n → u.peek (s.index.toNat + i) = s.peek (s.index.toNat + i)) →
        ∃ v, exec (.drw x y n) u = .next v ∧ v.pix = s.pix ∧
          (v.reg regF = 1 ↔ ∃ r c, Covered s x y n r c ∧ pixelAt s.pix r c = false)

/-! ### Errors -/

/-- 40_step_cycle R106, 60_exceptions R258: an instruction that reports an error changes nothing but the report:
no register, no memory byte, no stack entry, no pixel, no pc beyond the fetch-phase advance. -/
def Obligations.ErrorsArePrecise : Prop :=
  ∀ (i : Instr) (s : State), s.outcome = .ok →
    ∃ t, exec i s = .next t ∧ ∀ e, t.outcome = .err e → ReportsOnly e s t

/-- 60_exceptions R250: the complete list of errors: which instruction raises which, exactly when, and with
which code and info; the fetch raises AddressError exactly where `pc > 0xFFE`; outside a Step there is LoadTooLarge
alone. -/
def Obligations.ErrorsHaveExactlyTheseCauses : Prop :=
  (∀ (i : Instr) (s : State), s.outcome = .ok →
    ∃ t, exec i s = .next t ∧ ∀ e, t.outcome = .err e ↔ Raises i s e) ∧
  (∀ (s : State) e, fetch s = .error e ↔ s.pc.toNat > 0xFFE ∧ e = .addressError s.pc.toNat) ∧
  (∀ s : State, ∃ t, step s = .next t ∧ ∀ e, t.outcome = .err e ↔
    (s.pc.toNat > 0xFFE ∧ e = .addressError s.pc.toNat) ∨
    (∃ i, fetched s = some i ∧ Raises i (stepEntry s) e)) ∧
  StepError.stackUnderflow.code = 1 ∧ StepError.stackUnderflow.info = none ∧
  StepError.stackOverflow.code = 2 ∧ StepError.stackOverflow.info = none ∧
  (∀ bytes (s : State), (hostLoad bytes s).1 = .loadTooLarge ↔ bytes.length + 0x200 > 4096) ∧
  (∀ a, (StepError.addressError a).code = 3 ∧ (StepError.addressError a).info = some a) ∧
  (∀ k, (StepError.keyIndexError k).code = 4 ∧ (StepError.keyIndexError k).info = some k.toNat)

/-- 40_step_cycle R108: from every state and every input a Step is enabled and yields `Ok` or `Err`: no
instruction, in no state, stops the machine. -/
def Obligations.EveryStepCompletes : Prop :=
  (∀ (i : Instr) (s : State), ∃ t, exec i s = .next t) ∧
  (∀ (inp : HostInput) (s : State), ∃ t, cycle inp s = .next t) ∧
  (∀ s : State, ∃ t, step s = .next t)

/-! ### The Step cycle -/

/-- 40_step_cycle R100, R104: when the bytes at `pc` decode to a well-formed instruction, a Step is that
instruction executed in the state after the ticks, the key refresh and the pc's advance by 2. -/
def Obligations.StepRunsTheDecodedInstruction : Prop :=
  ∀ (s : State) (i : Instr), s.pc.toNat ≤ 0xFFE →
    decode [s.peek s.pc.toNat, s.peek (s.pc.toNat + 1)] = .ok (i, []) → WellFormed i = true →
    step s = exec i (stepEntry s)

/-- 40_step_cycle R105: an unrecognized word is a no-op: the Step is the ticks, the key refresh and the pc's
advance, with outcome `Ok`. -/
def Obligations.UnrecognizedWordIsANoOp : Prop :=
  ∀ s : State, s.pc.toNat ≤ 0xFFE →
    (∀ i rest, decode [s.peek s.pc.toNat, s.peek (s.pc.toNat + 1)] ≠ .ok (i, rest)) →
    step s = .next (stepEntry s) ∧ (stepEntry s).outcome = .ok

/-- 40_step_cycle R103: the fetch is the big-endian word at `pc`, even or odd; with `pc > 0xFFE` a Step reports
AddressError(pc) after the ticks and the key refresh, `pc` keeps its value, nothing else changes, and the
next Step reports the same again. -/
def Obligations.FetchReadsTheWordOrReports : Prop :=
  (∀ s : State, s.pc.toNat ≤ 0xFFE → ∃ w, fetch s = .ok w ∧
    w.toNat = (s.peek s.pc.toNat).toNat * 256 + (s.peek (s.pc.toNat + 1)).toNat) ∧
  (∀ s : State, s.pc.toNat > 0xFFE → ∃ t u,
    t = { stepEntry s with pc := s.pc, outcome := .err (.addressError s.pc.toNat), errSeen := true } ∧
    step s = .next t ∧ step t = .next u ∧ u.outcome = t.outcome ∧ u.pc = s.pc)

/-- 40_step_cycle R102, 60_exceptions R267 and log 2 (the model's own way of supplying inputs, DESIGN CHOICE): a
Step's inputs are those the host has lined up, else free values; every Step overwrites all 16 keys with
them; and a Step takes each lined-up input once. -/
def Obligations.StepTakesTheHostsInputs : Prop :=
  (∀ (s : State) inp rest, s.pending = inp :: rest → s.input = inp) ∧
  (∀ s : State, s.pending = [] →
    s.input = ⟨Config.freeTicks s.stepNo, Config.freeKeys s.stepNo, Config.freeRnd s.stepNo⟩) ∧
  (∀ s : State, ∃ t, step s = .next t ∧ t.key = s.input.keysIn ∧ t.rnd = s.input.rnd ∧
    t.pending = s.pending.tail ∧ t.stepNo = s.stepNo + 1 ∧ t.loadOpen = false)

/-! ### Whole-machine rules -/

/-- 10_state R20, R22, R23, 20_memory R59: which instruction may change which element: memory only FX33 and
FX55, the stack only 2NNN, `sp` only 00EE and 2NNN, the index register only ANNN, FX1E, FX29, the timers
only FX15 and FX18, the pixels and `draw` only 00E0 and DXYN, the key latch, the reference time, the
parameters and the inputs none; a register only where R22 lists it. -/
def Obligations.EachElementHasItsWriters : Prop :=
  ∀ (i : Instr) (s : State), ∃ t, exec i s = .next t ∧
    ((rowOf i).mnemonic ∉ ["LD_B", "ST_REGS"] → SameMemory s t) ∧
    ((rowOf i).mnemonic ≠ "CALL" → t.stack = s.stack) ∧
    ((rowOf i).mnemonic ∉ ["RET", "CALL"] → t.sp = s.sp) ∧
    ((rowOf i).mnemonic ∉ ["LD_I", "ADD_I", "LD_F"] → t.index = s.index) ∧
    ((rowOf i).mnemonic ≠ "LD_DT_VX" → t.dt = s.dt) ∧
    ((rowOf i).mnemonic ≠ "LD_ST_VX" → t.st = s.st) ∧
    ((rowOf i).mnemonic ∉ ["CLS", "DRW"] → t.pix = s.pix ∧ t.draw = s.draw) ∧
    (∀ r, ¬mayWriteReg i r → t.reg r = s.reg r) ∧
    t.key = s.key ∧ t.tLast = s.tLast ∧ t.cfg = s.cfg ∧ t.rnd = s.rnd ∧ t.loadOpen = s.loadOpen ∧
    t.pending = s.pending ∧ t.stepNo = s.stepNo

/-- 10_state R25: how each instruction leaves the pc; an unrecognized word leaves A + 2; a Step whose fetch
raises AddressError leaves A. The spec derives this table from 40_step_cycle R100 and the rules of 41_flow
and 45_keys_timers. -/
def Obligations.PcAfterEachStep : Prop :=
  (∀ (i : Instr) (s : State), ∃ t, exec i s = .next t ∧ t.pc = pcAfter i s) ∧
  (∀ s : State, ∃ t, step s = .next t ∧
    (∀ i, fetched s = some i → t.pc = pcAfter i (stepEntry s)) ∧
    (fetched s = none → s.pc.toNat ≤ 0xFFE → t.pc = s.pc + 2) ∧
    (s.pc.toNat > 0xFFE → t.pc = s.pc))

/-- 20_memory R51, R55, log 20: every Step keeps memory in its canonical form: no cell outside memory, addresses
rising, no cell equal to its reset byte. -/
def Obligations.MemoryStaysCanonical : Prop :=
  ∀ s t : State, s.MemOk → step s = .next t → t.MemOk

/-- 10_state R36: memory after reset is in canonical form, under every configuration, and a Load keeps it so. -/
def Obligations.ResetAndLoadMemoryIsCanonical : Prop :=
  (∀ p, (State.resetWith p).MemOk) ∧ State.reset.MemOk ∧
  (∀ bytes (s : State), s.MemOk → (hostLoad bytes s).2.MemOk)

/-- 10_state R30, 44_display R194: the pixel buffer is a grid of DISPLAY_H rows of DISPLAY_W cells after reset,
under every configuration, and stays one through every Step. -/
def Obligations.PixelGridKeepsItsSize : Prop :=
  (∀ p, (State.resetWith p).PixelsOk) ∧ (∀ s t : State, s.PixelsOk → step s = .next t → t.PixelsOk)

/-- 10_state R38: every Step keeps `pc <= 0x10FE` and every stack entry at most 0x1000, so that the modulo-65536
wrap of the pc is never reached. -/
def Obligations.AddressesStayInBounds : Prop :=
  ∀ s t : State, s.AddressesOk → step s = .next t → t.AddressesOk

/-- 10_state R36, R38: the state after reset is within the bounds, under every configuration. -/
def Obligations.ResetAddressesAreInBounds : Prop :=
  (∀ p, (State.resetWith p).AddressesOk) ∧ State.reset.AddressesOk

/-- 60_exceptions R260: a Step that reports an error leaves it recorded, and the record is never cleared by a
Step; a Step without error records nothing new. -/
def Obligations.ErrorsStayRecorded : Prop :=
  ∀ s t : State, step s = .next t →
    t.ErrorsRecorded ∧ (s.errSeen = true → t.errSeen = true) ∧
    (t.outcome = .ok → t.errSeen = s.errSeen)

/-- 10_state R31, R35, R38: `draw`, once 1, stays 1 through every Step; only the host clears it; and no Step
changes a configuration parameter. -/
def Obligations.DrawAndParametersPersist : Prop :=
  (∀ s t : State, step s = .next t → (s.draw = true → t.draw = true) ∧ t.cfg = s.cfg) ∧
  (∀ s : State, (hostClearDraw s).draw = false)

/-- 41_flow R128, 10_state R27: a Step never changes a stack entry in use; a pop leaves the entry's value in
place. -/
def Obligations.StackEntriesInUseAreKept : Prop :=
  ∀ s t : State, step s = .next t → ∀ k : Fin 16, k.val < s.sp.val → t.stack.get k = s.stack.get k

/-- 44_display R195: the core never reads `draw`: whether and when the host clears it has no effect on any
instruction. -/
def Obligations.DrawIsNeverRead : Prop :=
  ∀ (s : State) (b : Bool), ∃ t b', step s = .next t ∧ step { s with draw := b } = .next { t with draw := b' }

/-- 10_state R28, 91_not_in_source N14: no instruction reads the sound timer: two machines that differ in it
alone differ in it alone after every Step. -/
def Obligations.SoundTimerIsNeverRead : Prop :=
  ∀ (s : State) (v : Byte), ∃ t v', step s = .next t ∧ step { s with st := v } = .next { t with st := v' }

/-- 48_host_interface R238, 60_exceptions R259: the core keeps no memory of earlier errors: what a Step does
does not depend on what earlier Steps reported. -/
def Obligations.EarlierErrorsAreNeverRead : Prop :=
  ∀ (s : State) (o : StepOutcome) (b : Bool), ∃ t b', step s = .next t ∧
    step { s with outcome := o, errSeen := b } = .next { t with errSeen := b' }

/-- 40_step_cycle R109: the random byte matters only when the instruction is CXNN. -/
def Obligations.RandomByteMattersOnlyToRnd : Prop :=
  ∀ (inp : HostInput) (s : State) (v : Byte), (∀ x nn, fetched s ≠ some (.rnd x nn)) →
    ∃ t, cycle inp s = .next t ∧ cycle { inp with rnd := v } s = .next { t with rnd := v }

/-! ### Reset and the host -/

/-- 10_state R36: the value of every element after reset, under every configuration. `Reset` of a running
machine, under the same parameters, leaves the same values: 48_host_interface R231 by decision D16, log 22,
DESIGN CHOICE. -/
def Obligations.ResetLeavesTheseValues : Prop :=
  (∀ p, HasResetValues p (State.resetWith p)) ∧ HasResetValues Config.Params.standard State.reset ∧
  (∀ s : State, HasResetValues s.cfg (hostReset s))

/-- 48_host_interface R232, 20_memory R66: while `Load` is a move, at most 3584 bytes are placed from 0x200 up,
verbatim, and nothing else of the machine changes; a longer program is answered LoadTooLarge and writes
nothing; after a successful Load, or after a Step, `Load` is no move. R66 gives the host no such move
(decision D21); that the model answers it with the refusal `loadNotOffered` is log 18, DESIGN CHOICE. -/
def Obligations.LoadPlacesTheProgram : Prop :=
  (∀ (s : State) (bytes : List Byte), s.loadOpen = true → bytes.length ≤ 3584 →
    ∃ t, transact (.load bytes) s = .next (.loadOk, t) ∧
      (∀ k (h : k < bytes.length), t.peek (0x200 + k) = bytes[k]) ∧
      SameMemoryOutside 0x200 bytes.length s t ∧ t = { s with mem := t.mem, loadOpen := false }) ∧
  (∀ (s : State) (bytes : List Byte), s.loadOpen = true → bytes.length > 3584 →
    transact (.load bytes) s = .next (.loadTooLarge, s)) ∧
  (∀ (s : State) (bytes : List Byte), s.loadOpen = false →
    transact (.load bytes) s = .refused .loadNotOffered) ∧
  (∀ s t : State, step s = .next t → t.loadOpen = false)

/-- 48_host_interface R237: ReadPixel gives a cell of the grid, ReadDraw gives `draw`, ClearDraw clears it, and
nothing else changes. -/
def Obligations.HostReadsAndClears : Prop :=
  (∀ (s : State) r c, r < s.cfg.displayH → c < s.cfg.displayW →
    transact (.readPixel r c) s = .next (.bit (pixelAt s.pix r c), s)) ∧
  (∀ s : State, transact .readDraw s = .next (.bit s.draw, s)) ∧
  (∀ s : State, transact .clearDraw s = .next (.done, { s with draw := false }))

/-- 44_display R194 with log 23 (the model's DESIGN CHOICE: the rule says that a cell outside the grid does not
exist, not what asking for one does): such a ReadPixel is a fault, and no other transaction is one. -/
def Obligations.OnlyReadingNoPixelFaults : Prop :=
  (∀ (s : State) r c, ¬(r < s.cfg.displayH ∧ c < s.cfg.displayW) →
    transact (.readPixel r c) s = .fault (.noSuchPixel r c)) ∧
  (∀ m (s : State) f, transact m s = .fault f →
    ∃ r c, m = .readPixel r c ∧ ¬(r < s.cfg.displayH ∧ c < s.cfg.displayW))

/-- 60_exceptions R265, R266, 40_step_cycle R100, R101, 48_host_interface R233, R235: a Step at the host's clock
`now` leaves the reference time and, unless it executes FX15 or FX18, the timers where the source's tick loop
on that clock leaves them; and that loop is the tick phase by count (`tickTimers`). That `t_last` is held as
a count of intervals, and that a Step takes the count the clock amounts to (R267), is the model's, log 4. -/
def Obligations.StepAtTheClockTicksAsTheLoop : Prop :=
  ∀ (now : Int) (keysIn : Vector Bool Config.nKeys) (rnd : Byte) (s : State) (fuel : Nat),
    s.ticksDue now ≤ fuel →
    let u := tickLoop fuel now s
    u = tickTimers (s.ticksDue now) s ∧
    ∃ t, transact (.stepAt now keysIn rnd) s = .next (.stepped t.outcome, t) ∧
      t.lastTick = u.lastTick ∧ t.key = keysIn ∧ t.rnd = rnd ∧
      ((∀ x, fetched s ≠ some (.ldDtVx x)) → t.dt = u.dt) ∧
      (∀ x, fetched s = some (.ldDtVx x) → t.dt = s.reg x) ∧
      ((∀ x, fetched s ≠ some (.ldStVx x)) → t.st = u.st) ∧
      (∀ x, fetched s = some (.ldStVx x) → t.st = s.reg x)
end

