-- ==== Sys2Proof/Laws/Display.lean ====
section
/-!
SUPPORT. What the drawing loops of 44_display R191 do to each pixel and to the collision flag: the loop
over a byte's columns, then the loop over the rows. Each pixel is touched at most once, so it is toggled
exactly where a sprite bit of 1 lands on it, and a collision is such a bit on a pixel that was set.
-/

namespace Sys2Proof.Machine

theorem Pixels.sized_iff {w h : Nat} {p : Pixels} :
    p.sized w h = true ↔ p.length = h ∧ ∀ row ∈ p, row.length = w := by
  simp [Pixels.sized]

theorem Pixels.sized_blank (w h : Nat) : (Pixels.blank w h).sized w h = true := by
  rw [Pixels.sized_iff]
  exact ⟨List.length_replicate, fun row hr => by rw [List.eq_of_mem_replicate hr, List.length_replicate]⟩

@[simp] theorem pixelAt_blank (w h r c : Nat) : pixelAt (Pixels.blank w h) r c = false := by
  simp only [pixelAt, Pixels.blank, List.getD_eq_getElem?_getD, List.getElem?_replicate]
  by_cases hr : r < h <;> simp [hr, List.getElem?_replicate]
  split <;> rfl

/-- Toggling keeps the size of the buffer. -/
theorem sized_togglePixel {w h : Nat} {p : Pixels} (hs : p.sized w h = true) (r c : Nat) :
    (togglePixel p r c).sized w h = true := by
  rw [Pixels.sized_iff] at hs ⊢
  refine ⟨by rw [togglePixel, List.length_modify, hs.1], fun row hrow => ?_⟩
  obtain ⟨i, hi, rfl⟩ := List.getElem_of_mem hrow
  rw [togglePixel, List.length_modify] at hi
  have := hs.2 _ (List.getElem_mem hi)
  simp only [togglePixel, List.getElem_modify]
  split
  · rwa [List.length_modify]
  · exact this

/-- Toggling changes the one pixel, where it exists. -/
theorem pixelAt_togglePixel {w h : Nat} {p : Pixels} (hs : p.sized w h = true) {r c : Nat} (hr : r < h)
    (hc : c < w) (r' c' : Nat) :
    pixelAt (togglePixel p r c) r' c' = (pixelAt p r' c' ^^ decide (r' = r ∧ c' = c)) := by
  obtain ⟨hl, hrow⟩ := Pixels.sized_iff.mp hs
  have hlen : (p[r]'(by omega)).length = w := hrow _ (List.getElem_mem _)
  simp only [pixelAt, togglePixel, List.getD_eq_getElem?_getD, List.getElem?_modify]
  by_cases hrr : r' = r
  · subst hrr
    have hp : p[r']? = some (p[r']'(by omega)) := List.getElem?_eq_getElem _
    simp only [hp, if_true, Option.getD_some, true_and]
    by_cases hcc : c' = c
    · subst hcc
      have hq : (p[r']'(by omega))[c']? = some ((p[r']'(by omega))[c']'(by omega)) := List.getElem?_eq_getElem _
      simp [hq]
    · simp [hcc, Ne.symm hcc]
  · simp [hrr, Ne.symm hrr]

theorem sized_plot {w h : Nat} (b : Bool) (r c : Nat) {k : Canvas} (hs : k.pix.sized w h = true) :
    (plot b r c k).pix.sized w h = true := by
  cases b
  · exact hs
  · exact sized_togglePixel hs r c

theorem pixelAt_plot {w h : Nat} (b : Bool) {r c : Nat} (hr : r < h) (hc : c < w) {k : Canvas}
    (hs : k.pix.sized w h = true) (r' c' : Nat) :
    pixelAt (plot b r c k).pix r' c' = (pixelAt k.pix r' c' ^^ (b && decide (r' = r ∧ c' = c))) := by
  cases b
  · simp [plot]
  · simp only [plot, if_true, pixelAt_togglePixel hs hr hc, Bool.true_and]

theorem hit_plot (b : Bool) (r c : Nat) (k : Canvas) :
    (plot b r c k).hit = (k.hit || (b && pixelAt k.pix r c)) := by
  cases b <;> simp [plot]

/-- The first `m` columns of a sprite byte. -/
def drawColumns (w : Nat) (msb : Bool) (x0 r : Nat) (b : Byte) (k : Canvas) (m : Nat) : Canvas :=
  (List.range m).foldl
    (fun k j => if x0 + j < w then plot (spriteBit msb b j) r (x0 + j) k else k) k

theorem drawColumns_succ (w : Nat) (msb : Bool) (x0 r : Nat) (b : Byte) (k : Canvas) (m : Nat) :
    drawColumns w msb x0 r b k (m + 1) =
      if x0 + m < w then plot (spriteBit msb b m) r (x0 + m) (drawColumns w msb x0 r b k m)
      else drawColumns w msb x0 r b k m := by
  simp [drawColumns, List.range_succ]

theorem sized_drawColumns {w h : Nat} (msb : Bool) (x0 r : Nat) (b : Byte) {k : Canvas}
    (hs : k.pix.sized w h = true) (m : Nat) : (drawColumns w msb x0 r b k m).pix.sized w h = true := by
  induction m with
  | zero => exact hs
  | succ m ih =>
    rw [drawColumns_succ]
    split
    · exact sized_plot _ _ _ ih
    · exact ih

theorem pixelAt_drawColumns {w h : Nat} (msb : Bool) {x0 r : Nat} (hr : r < h) (b : Byte) {k : Canvas} (hs : k.pix.sized w h = true) (m : Nat)
    (r' c' : Nat) :
    pixelAt (drawColumns w msb x0 r b k m).pix r' c' =
      (pixelAt k.pix r' c' ^^
        (decide (r' = r ∧ x0 ≤ c' ∧ c' < x0 + m ∧ c' < w) && spriteBit msb b (c' - x0))) := by
  induction m with
  | zero =>
    rw [decide_eq_false (by omega), Bool.false_and, Bool.xor_false]
    rfl
  | succ m ih =>
    rw [drawColumns_succ]
    split
    · rename_i hc
      rw [pixelAt_plot _ hr hc (sized_drawColumns msb x0 r b hs m), ih]
      by_cases hcc : c' = x0 + m
      · subst hcc
        simp [hc, Bool.and_comm]
      · have : (x0 ≤ c' ∧ c' < x0 + (m + 1) ∧ c' < w) ↔ (x0 ≤ c' ∧ c' < x0 + m ∧ c' < w) := by omega
        simp [hcc, this]
    · rw [ih]
      have : (x0 ≤ c' ∧ c' < x0 + (m + 1) ∧ c' < w) ↔ (x0 ≤ c' ∧ c' < x0 + m ∧ c' < w) := by omega
      simp [this]

theorem hit_drawColumns {w h : Nat} (msb : Bool) {x0 r : Nat} (hr : r < h) (b : Byte) {k : Canvas} (hs : k.pix.sized w h = true) (m : Nat) :
    (drawColumns w msb x0 r b k m).hit = true ↔
      k.hit = true ∨ ∃ j, j < m ∧ x0 + j < w ∧ spriteBit msb b j = true ∧ pixelAt k.pix r (x0 + j) = true := by
  induction m with
  | zero => simp [drawColumns]
  | succ m ih =>
    rw [drawColumns_succ]
    have hpix : pixelAt (drawColumns w msb x0 r b k m).pix r (x0 + m) = pixelAt k.pix r (x0 + m) := by
      rw [pixelAt_drawColumns msb hr b hs, decide_eq_false (by omega), Bool.false_and, Bool.xor_false]
    split
    · rename_i hc
      rw [hit_plot, hpix, Bool.or_eq_true, ih, Bool.and_eq_true]
      constructor
      · rintro ((h | ⟨j, hj, h⟩) | h)
        · exact .inl h
        · exact .inr ⟨j, by omega, h⟩
        · exact .inr ⟨m, by omega, hc, h⟩
      · rintro (h | ⟨j, hj, h1, h2⟩)
        · exact .inl (.inl h)
        · by_cases hjm : j = m
          · subst hjm; exact .inr h2
          · exact .inl (.inr ⟨j, by omega, h1, h2⟩)
    · rename_i hc
      rw [ih]
      constructor
      · rintro (h | ⟨j, hj, h⟩)
        · exact .inl h
        · exact .inr ⟨j, by omega, h⟩
      · rintro (h | ⟨j, hj, h1, h2⟩)
        · exact .inl h
        · exact .inr ⟨j, by rcases Nat.lt_succ_iff_lt_or_eq.mp hj with h | h <;> [exact h; (subst h; omega)], h1, h2⟩

theorem sized_drawByte {w h : Nat} (msb : Bool) (x0 r : Nat) (b : Byte) {k : Canvas}
    (hs : k.pix.sized w h = true) : (drawByte w msb x0 r b k).pix.sized w h = true :=
  sized_drawColumns msb x0 r b hs 8

/-- Drawing keeps the size of the buffer. -/
theorem sized_drawBytes {w h : Nat} (msb : Bool) (x0 r : Nat) (bs : List Byte) {k : Canvas}
    (hs : k.pix.sized w h = true) : (drawBytes w msb x0 r bs k).pix.sized w h = true := by
  induction bs generalizing r k with
  | nil => exact hs
  | cons b bs ih => exact ih _ (sized_drawByte msb x0 r b hs)

/-- Sprite bytes on rows `r`, `r + 1`, ...: the pixel (r', c') is toggled where the bit of its row's byte
and its column is 1. -/
theorem pixelAt_drawBytes {w h : Nat} (msb : Bool) (x0 : Nat) (bs : List Byte) {r : Nat} (hr : r + bs.length ≤ h)
    {k : Canvas} (hs : k.pix.sized w h = true) (r' c' : Nat) :
    pixelAt (drawBytes w msb x0 r bs k).pix r' c' =
      (pixelAt k.pix r' c' ^^
        (decide (r ≤ r' ∧ r' < r + bs.length ∧ x0 ≤ c' ∧ c' < x0 + 8 ∧ c' < w) &&
          spriteBit msb (bs.getD (r' - r) 0) (c' - x0))) := by
  induction bs generalizing r k with
  | nil =>
    rw [decide_eq_false (by simp only [List.length_nil]; omega), Bool.false_and, Bool.xor_false]
    rfl
  | cons b bs ih =>
    simp only [List.length_cons] at hr
    rw [drawBytes, ih (by omega) (sized_drawByte msb x0 r b hs)]
    change (pixelAt (drawColumns w msb x0 r b k 8).pix r' c' ^^ _) = _
    rw [pixelAt_drawColumns (h := h) msb (by omega) b hs]
    simp only [List.length_cons]
    by_cases h : r' = r
    · subst h
      rw [decide_eq_false (p := r' + 1 ≤ r' ∧ _) (by omega), Bool.false_and, Bool.xor_false]
      have e : (r' = r' ∧ x0 ≤ c' ∧ c' < x0 + 8 ∧ c' < w) ↔
          (r' ≤ r' ∧ r' < r' + (bs.length + 1) ∧ x0 ≤ c' ∧ c' < x0 + 8 ∧ c' < w) := by omega
      rw [decide_eq_decide.mpr e, Nat.sub_self]
      rfl
    · rw [decide_eq_false (p := r' = r ∧ _) (fun e => h e.1), Bool.false_and, Bool.xor_false]
      have e : (r + 1 ≤ r' ∧ r' < r + 1 + bs.length ∧ x0 ≤ c' ∧ c' < x0 + 8 ∧ c' < w) ↔
          (r ≤ r' ∧ r' < r + (bs.length + 1) ∧ x0 ≤ c' ∧ c' < x0 + 8 ∧ c' < w) := by omega
      rw [decide_eq_decide.mpr e]
      by_cases hle : r ≤ r'
      · have hd : r' - r = (r' - (r + 1)) + 1 := by omega
        rw [hd, List.getD_cons_succ]
      · rw [decide_eq_false (p := r ≤ r' ∧ _) (fun e => hle e.1), Bool.false_and, Bool.false_and]

/-- Sprite bytes on rows `r`, `r + 1`, ...: a collision is a sprite bit of 1 on a pixel that was set before
the drawing began. -/
theorem hit_drawBytes {w h : Nat} (msb : Bool) (x0 : Nat) (bs : List Byte) {r : Nat} (hr : r + bs.length ≤ h)
    {k : Canvas} (hs : k.pix.sized w h = true) :
    (drawBytes w msb x0 r bs k).hit = true ↔
      k.hit = true ∨ ∃ i j, i < bs.length ∧ j < 8 ∧ x0 + j < w ∧ spriteBit msb (bs.getD i 0) j = true ∧
        pixelAt k.pix (r + i) (x0 + j) = true := by
  induction bs generalizing r k with
  | nil => simp [drawBytes]
  | cons b bs ih =>
    simp only [List.length_cons] at hr
    have hbelow : ∀ i j, pixelAt (drawByte w msb x0 r b k).pix (r + 1 + i) (x0 + j) =
        pixelAt k.pix (r + 1 + i) (x0 + j) := by
      intro i j
      change pixelAt (drawColumns w msb x0 r b k 8).pix _ _ = _
      rw [pixelAt_drawColumns (h := h) msb (by omega) b hs, decide_eq_false (by omega), Bool.false_and, Bool.xor_false]
    have hfirst : (drawByte w msb x0 r b k).hit = true ↔ _ := hit_drawColumns (h := h) msb (by omega) b hs 8
    rw [drawBytes, ih (by omega) (sized_drawByte msb x0 r b hs), hfirst]
    constructor
    · rintro ((h | ⟨j, h1, h2, h3, h4⟩) | ⟨i, j, h0, h1, h2, h3, h4⟩)
      · exact .inl h
      · exact .inr ⟨0, j, by simp, h1, h2, by simpa using h3, h4⟩
      · rw [hbelow] at h4
        refine .inr ⟨i + 1, j, by simpa using h0, h1, h2, by simpa using h3, ?_⟩
        rw [show r + (i + 1) = r + 1 + i by omega]; exact h4
    · rintro (h | ⟨i, j, h0, h1, h2, h3, h4⟩)
      · exact .inl (.inl h)
      · cases i with
        | zero => exact .inl (.inr ⟨j, h1, h2, by simpa using h3, h4⟩)
        | succ i =>
          refine .inr ⟨i, j, by simpa using h0, h1, h2, by simpa using h3, ?_⟩
          rw [hbelow, show r + 1 + i = r + (i + 1) by omega]; exact h4

end Sys2Proof.Machine
end

