-- ==== Sys2Proof/Laws/Encoding.lean ====
section
/-!
SUPPORT. The fields of a word and the words of fields, as numbers (30_encoding R81, R90): each field of a
word built from fields is that field.
-/

namespace Sys2Proof

theorem toNat_append_eq {v w : Nat} (a : BitVec v) (b : BitVec w) :
    (a ++ b).toNat = a.toNat * 2 ^ w + b.toNat := by
  rw [BitVec.toNat_append, ← Nat.shiftLeft_add_eq_or_of_lt b.isLt, Nat.shiftLeft_eq]

@[simp] theorem regField_toNat (r : Reg) : (regField r).toNat = r.val := rfl

theorem wordA_toNat (t : BitVec 4) (a : BitVec 12) : (wordA t a).toNat = t.toNat * 4096 + a.toNat :=
  toNat_append_eq t a

theorem wordRI_toNat (t : BitVec 4) (x : Reg) (k : Byte) :
    (wordRI t x k).toNat = t.toNat * 4096 + x.val * 256 + k.toNat := by
  have h := toNat_append_eq (t ++ regField x) k
  have hx := toNat_append_eq t (regField x)
  rw [regField_toNat] at hx
  exact h.trans (by omega)

theorem wordRRN_toNat (t : BitVec 4) (x y : Reg) (n : BitVec 4) :
    (wordRRN t x y n).toNat = t.toNat * 4096 + x.val * 256 + y.val * 16 + n.toNat := by
  have h := toNat_append_eq (t ++ regField x ++ regField y) n
  have hy := toNat_append_eq (t ++ regField x) (regField y)
  have hx := toNat_append_eq t (regField x)
  rw [regField_toNat] at hx hy
  exact h.trans (by omega)

theorem fieldT_toNat (op : Word) : (fieldT op).toNat = op.toNat / 4096 := by
  have := op.isLt
  simp [fieldT, Nat.shiftRight_eq_div_pow]; omega

theorem fieldX_val (op : Word) : (fieldX op).val = op.toNat / 256 % 16 := by
  simp [fieldX, Nat.shiftRight_eq_div_pow]

theorem fieldY_val (op : Word) : (fieldY op).val = op.toNat / 16 % 16 := by
  simp [fieldY, Nat.shiftRight_eq_div_pow]

theorem fieldN_toNat (op : Word) : (fieldN op).toNat = op.toNat % 16 := by
  simp [fieldN]

theorem fieldNN_toNat (op : Word) : (fieldNN op).toNat = op.toNat % 256 := by
  simp [fieldNN]

theorem fieldNNN_toNat (op : Word) : (fieldNNN op).toNat = op.toNat % 4096 := by
  simp [fieldNNN]

@[simp] theorem fieldT_wordA (t : BitVec 4) (a : BitVec 12) : fieldT (wordA t a) = t := by
  apply BitVec.eq_of_toNat_eq; rw [fieldT_toNat, wordA_toNat]; omega

@[simp] theorem fieldNNN_wordA (t : BitVec 4) (a : BitVec 12) : fieldNNN (wordA t a) = a := by
  apply BitVec.eq_of_toNat_eq; rw [fieldNNN_toNat, wordA_toNat]; omega

@[simp] theorem fieldT_wordRI (t : BitVec 4) (x : Reg) (k : Byte) : fieldT (wordRI t x k) = t := by
  apply BitVec.eq_of_toNat_eq; rw [fieldT_toNat, wordRI_toNat]; omega

@[simp] theorem fieldX_wordRI (t : BitVec 4) (x : Reg) (k : Byte) : fieldX (wordRI t x k) = x := by
  apply Fin.ext; rw [fieldX_val, wordRI_toNat]; omega

@[simp] theorem fieldNN_wordRI (t : BitVec 4) (x : Reg) (k : Byte) : fieldNN (wordRI t x k) = k := by
  apply BitVec.eq_of_toNat_eq; rw [fieldNN_toNat, wordRI_toNat]; omega

@[simp] theorem fieldT_wordRRN (t : BitVec 4) (x y : Reg) (n : BitVec 4) :
    fieldT (wordRRN t x y n) = t := by
  apply BitVec.eq_of_toNat_eq; rw [fieldT_toNat, wordRRN_toNat]; omega

@[simp] theorem fieldX_wordRRN (t : BitVec 4) (x y : Reg) (n : BitVec 4) :
    fieldX (wordRRN t x y n) = x := by
  apply Fin.ext; rw [fieldX_val, wordRRN_toNat]; omega

@[simp] theorem fieldY_wordRRN (t : BitVec 4) (x y : Reg) (n : BitVec 4) :
    fieldY (wordRRN t x y n) = y := by
  apply Fin.ext; rw [fieldY_val, wordRRN_toNat]; omega

@[simp] theorem fieldN_wordRRN (t : BitVec 4) (x y : Reg) (n : BitVec 4) :
    fieldN (wordRRN t x y n) = n := by
  apply BitVec.eq_of_toNat_eq; rw [fieldN_toNat, wordRRN_toNat]; omega

/-- A word is its nibble and its address field. -/
theorem wordA_of_fields (op : Word) : wordA (fieldT op) (fieldNNN op) = op := by
  apply BitVec.eq_of_toNat_eq; rw [wordA_toNat, fieldT_toNat, fieldNNN_toNat]; omega

/-- A word is its nibble, its register field and its byte field. -/
theorem wordRI_of_fields (op : Word) : wordRI (fieldT op) (fieldX op) (fieldNN op) = op := by
  apply BitVec.eq_of_toNat_eq; rw [wordRI_toNat, fieldT_toNat, fieldX_val, fieldNN_toNat]; omega

/-- A word is its four nibbles. -/
theorem wordRRN_of_fields (op : Word) : wordRRN (fieldT op) (fieldX op) (fieldY op) (fieldN op) = op := by
  apply BitVec.eq_of_toNat_eq
  rw [wordRRN_toNat, fieldT_toNat, fieldX_val, fieldY_val, fieldN_toNat]; omega

/-- The bytes of a word, put together again, are the word (30_encoding R80). -/
theorem wordOfBytes_bytes (op : Word) : wordOfBytes (op.extractLsb' 8 8) (op.extractLsb' 0 8) = op := by
  apply BitVec.eq_of_toNat_eq
  have := op.isLt
  refine (toNat_append_eq _ _).trans ?_
  simp only [BitVec.extractLsb'_toNat, Nat.shiftRight_eq_div_pow]
  omega

/-- A mask that keeps the top nibble of an address-view word keeps just that. -/
theorem and_wordA (t : BitVec 4) (a : BitVec 12) : wordA t a &&& 0xF000 = wordA t 0 := by
  have h : (t ++ a) &&& (0xF#4 ++ 0x000#12) = (t &&& 0xF#4) ++ (a &&& 0x000#12) := BitVec.and_append
  rw [show (0xF#4 : BitVec 4) = BitVec.allOnes 4 from rfl, BitVec.and_allOnes, BitVec.and_zero] at h
  exact h

/-- A mask that keeps the top nibble of a byte-view word keeps just that. -/
theorem and_wordRI_top (t : BitVec 4) (x : Reg) (k : Byte) : wordRI t x k &&& 0xF000 = wordRI t 0 0 := by
  have h : ((t ++ regField x) ++ k) &&& ((0xF#4 ++ 0x0#4) ++ 0x00#8) =
      ((t &&& 0xF#4) ++ (regField x &&& 0x0#4)) ++ (k &&& 0x00#8) := by
    rw [BitVec.and_append, BitVec.and_append]
  rw [show (0xF#4 : BitVec 4) = BitVec.allOnes 4 from rfl, BitVec.and_allOnes, BitVec.and_zero,
    BitVec.and_zero] at h
  exact h

/-- A mask that keeps the top nibble and the low byte of a byte-view word keeps just those. -/
theorem and_wordRI_fn (t : BitVec 4) (x : Reg) (k : Byte) : wordRI t x k &&& 0xF0FF = wordRI t 0 k := by
  have h : ((t ++ regField x) ++ k) &&& ((0xF#4 ++ 0x0#4) ++ 0xFF#8) =
      ((t &&& 0xF#4) ++ (regField x &&& 0x0#4)) ++ (k &&& 0xFF#8) := by
    rw [BitVec.and_append, BitVec.and_append]
  rw [show (0xF#4 : BitVec 4) = BitVec.allOnes 4 from rfl, show (0xFF#8 : Byte) = BitVec.allOnes 8 from rfl,
    BitVec.and_allOnes, BitVec.and_allOnes, BitVec.and_zero] at h
  exact h

/-- A mask that keeps the top nibble of a nibble-view word keeps just that. -/
theorem and_wordRRN_top (t : BitVec 4) (x y : Reg) (n : BitVec 4) :
    wordRRN t x y n &&& 0xF000 = wordRRN t 0 0 0 := by
  have h : (((t ++ regField x) ++ regField y) ++ n) &&& (((0xF#4 ++ 0x0#4) ++ 0x0#4) ++ 0x0#4) =
      (((t &&& 0xF#4) ++ (regField x &&& 0x0#4)) ++ (regField y &&& 0x0#4)) ++ (n &&& 0x0#4) := by
    rw [BitVec.and_append, BitVec.and_append, BitVec.and_append]
  rw [show (0xF#4 : BitVec 4) = BitVec.allOnes 4 from rfl, BitVec.and_allOnes, BitVec.and_zero,
    BitVec.and_zero, BitVec.and_zero] at h
  exact h

/-- A mask that keeps the top nibble and N of a nibble-view word keeps just those. -/
theorem and_wordRRN_fn (t : BitVec 4) (x y : Reg) (n : BitVec 4) :
    wordRRN t x y n &&& 0xF00F = wordRRN t 0 0 n := by
  have h : (((t ++ regField x) ++ regField y) ++ n) &&& (((0xF#4 ++ 0x0#4) ++ 0x0#4) ++ 0xF#4) =
      (((t &&& 0xF#4) ++ (regField x &&& 0x0#4)) ++ (regField y &&& 0x0#4)) ++ (n &&& 0xF#4) := by
    rw [BitVec.and_append, BitVec.and_append, BitVec.and_append]
  rw [show (0xF#4 : BitVec 4) = BitVec.allOnes 4 from rfl, BitVec.and_allOnes, BitVec.and_zero,
    BitVec.and_zero, BitVec.and_allOnes] at h
  exact h

end Sys2Proof
end

