-- ==== Sys2Proof/Laws/Memory.lean ====
section
/-!
SUPPORT. Memory as a canonical list: a read after a write, and that every operation keeps the canonical
form (20_memory R55, R58).
-/

namespace Sys2Proof.Machine

theorem Memory.read_erase_self (bg : Nat → Byte) (m : Memory) (a : Nat) :
    Memory.read bg (Memory.erase m a) a = bg a := by
  induction m with
  | nil => rfl
  | cons c m ih =>
    obtain ⟨b, w⟩ := c
    by_cases h : b = a
    · simpa [Memory.erase, h] using ih
    · simpa [Memory.erase, Memory.read, h, Ne.symm h] using ih

theorem Memory.read_erase_other (bg : Nat → Byte) (m : Memory) {a b : Nat} (h : b ≠ a) :
    Memory.read bg (Memory.erase m a) b = Memory.read bg m b := by
  induction m with
  | nil => rfl
  | cons c m ih =>
    obtain ⟨d, w⟩ := c
    by_cases hd : d = a
    · simpa [Memory.erase, Memory.read, hd, h] using ih
    · simp only [Memory.erase, Memory.read, List.filter_cons] at ih ⊢
      simp [hd, Memory.read, ih]

theorem Memory.read_insert_other (bg : Nat → Byte) (m : Memory) {a b : Nat} (v : Byte) (h : b ≠ a) :
    Memory.read bg (Memory.insert m a v) b = Memory.read bg m b := by
  induction m with
  | nil => simp [Memory.insert, Memory.read, h]
  | cons c m ih =>
    obtain ⟨d, w⟩ := c
    by_cases hd : a < d <;> simp [Memory.insert, Memory.read, hd, h, ih]

theorem Memory.read_insert_self (bg : Nat → Byte) (m : Memory) (a : Nat) (v : Byte)
    (h : ∀ c ∈ m, c.1 ≠ a) : Memory.read bg (Memory.insert m a v) a = v := by
  induction m with
  | nil => simp [Memory.insert, Memory.read]
  | cons c m ih =>
    obtain ⟨d, w⟩ := c
    have hne : d ≠ a := h (d, w) (by simp)
    have hm : ∀ c ∈ m, c.1 ≠ a := fun c hc => h c (by simp [hc])
    by_cases hd : a < d
    · simp [Memory.insert, Memory.read, hd]
    · simp [Memory.insert, Memory.read, hd, Ne.symm hne, ih hm]

theorem Memory.erase_no_cell (m : Memory) (a : Nat) : ∀ c ∈ Memory.erase m a, c.1 ≠ a := by
  intro c hc
  simpa using (List.mem_filter.mp hc).2

/-- A read after a write to the same address gives the value written. -/
theorem Memory.read_write_self (bg : Nat → Byte) (m : Memory) (a : Nat) (v : Byte) :
    Memory.read bg (Memory.write bg m a v) a = v := by
  unfold Memory.write
  split
  · rw [Memory.read_erase_self]; exact Eq.symm ‹_›
  · exact Memory.read_insert_self bg _ a v (Memory.erase_no_cell m a)

/-- A write leaves every other address as it was. -/
theorem Memory.read_write_other (bg : Nat → Byte) (m : Memory) {a b : Nat} (v : Byte) (h : b ≠ a) :
    Memory.read bg (Memory.write bg m a v) b = Memory.read bg m b := by
  unfold Memory.write
  split
  · exact Memory.read_erase_other bg m h
  · rw [Memory.read_insert_other bg _ v h, Memory.read_erase_other bg m h]

theorem Memory.wfFrom_cons {bg : Nat → Byte} {lo a : Nat} {v : Byte} {m : Memory} :
    Memory.wfFrom bg lo ((a, v) :: m) = true ↔
      lo ≤ a ∧ a < Config.memSize ∧ v ≠ bg a ∧ Memory.wfFrom bg (a + 1) m = true := by
  simp [Memory.wfFrom, and_assoc]

theorem Memory.wfFrom_weaken {bg : Nat → Byte} {lo lo' : Nat} {m : Memory} (h : lo' ≤ lo)
    (hm : Memory.wfFrom bg lo m = true) : Memory.wfFrom bg lo' m = true := by
  cases m with
  | nil => rfl
  | cons c m =>
    obtain ⟨a, v⟩ := c
    rw [Memory.wfFrom_cons] at hm ⊢
    exact ⟨by omega, hm.2⟩

theorem Memory.wfFrom_erase {bg : Nat → Byte} {lo : Nat} {m : Memory} (a : Nat)
    (hm : Memory.wfFrom bg lo m = true) : Memory.wfFrom bg lo (Memory.erase m a) = true := by
  induction m generalizing lo with
  | nil => rfl
  | cons c m ih =>
    obtain ⟨b, v⟩ := c
    rw [Memory.wfFrom_cons] at hm
    obtain ⟨h1, h2, h3, h4⟩ := hm
    by_cases h : b = a
    · have := Memory.wfFrom_weaken (lo' := lo) (by omega) (ih h4)
      simpa [Memory.erase, h] using this
    · have := Memory.wfFrom_cons.mpr ⟨h1, h2, h3, ih h4⟩
      simpa [Memory.erase, h] using this

theorem Memory.wfFrom_insert {bg : Nat → Byte} {lo : Nat} {m : Memory} {a : Nat} {v : Byte}
    (hlo : lo ≤ a) (ha : a < Config.memSize) (hv : v ≠ bg a) (hne : ∀ c ∈ m, c.1 ≠ a)
    (hm : Memory.wfFrom bg lo m = true) : Memory.wfFrom bg lo (Memory.insert m a v) = true := by
  induction m generalizing lo with
  | nil => exact Memory.wfFrom_cons.mpr ⟨hlo, ha, hv, rfl⟩
  | cons c m ih =>
    obtain ⟨b, w⟩ := c
    rw [Memory.wfFrom_cons] at hm
    obtain ⟨h1, h2, h3, h4⟩ := hm
    have hb : b ≠ a := hne (b, w) (by simp)
    simp only [Memory.insert]
    split
    · exact Memory.wfFrom_cons.mpr ⟨hlo, ha, hv, Memory.wfFrom_cons.mpr ⟨by omega, h2, h3, h4⟩⟩
    · exact Memory.wfFrom_cons.mpr
        ⟨h1, h2, h3, ih (by omega) (fun c hc => hne c (by simp [hc])) h4⟩

/-- A write inside memory keeps the canonical form. -/
theorem Memory.wf_write {bg : Nat → Byte} {m : Memory} {a : Nat} (v : Byte) (ha : a < Config.memSize)
    (hm : Memory.wf bg m = true) : Memory.wf bg (Memory.write bg m a v) = true := by
  unfold Memory.write
  split
  · exact Memory.wfFrom_erase a hm
  · exact Memory.wfFrom_insert (Nat.zero_le _) ha ‹_› (Memory.erase_no_cell m a) (Memory.wfFrom_erase a hm)

/-- Memory that lists nothing is in canonical form. -/
theorem Memory.wf_nil (bg : Nat → Byte) : Memory.wf bg [] = true := rfl

/-- Below the first address of a canonical list the background shows. -/
theorem Memory.read_below {bg : Nat → Byte} {lo a : Nat} {m : Memory} (ha : a < lo)
    (hm : Memory.wfFrom bg lo m = true) : Memory.read bg m a = bg a := by
  induction m generalizing lo with
  | nil => rfl
  | cons c m ih =>
    obtain ⟨b, v⟩ := c
    rw [Memory.wfFrom_cons] at hm
    have : a ≠ b := by omega
    simp [Memory.read, this, ih (lo := b + 1) (by omega) hm.2.2.2]

/-- Two canonical lists that read alike are the same list: equal memories are equal data. -/
theorem Memory.eq_of_read_eq {bg : Nat → Byte} {lo : Nat} {m n : Memory}
    (hm : Memory.wfFrom bg lo m = true) (hn : Memory.wfFrom bg lo n = true)
    (h : ∀ a, Memory.read bg m a = Memory.read bg n a) : m = n := by
  induction m generalizing lo n with
  | nil =>
    cases n with
    | nil => rfl
    | cons c n =>
      obtain ⟨b, v⟩ := c
      rw [Memory.wfFrom_cons] at hn
      have := h b
      simp [Memory.read] at this
      exact absurd this.symm hn.2.2.1
  | cons c m ih =>
    obtain ⟨a, v⟩ := c
    rw [Memory.wfFrom_cons] at hm
    obtain ⟨_, _, hv, hm'⟩ := hm
    cases n with
    | nil =>
      have := h a
      simp [Memory.read] at this
      exact absurd this hv
    | cons d n =>
      obtain ⟨b, w⟩ := d
      rw [Memory.wfFrom_cons] at hn
      obtain ⟨_, _, hw, hn'⟩ := hn
      have hab : a = b := by
        rcases Nat.lt_trichotomy a b with hlt | heq | hgt
        · have hb : Memory.read bg n a = bg a := Memory.read_below (lo := b + 1) (by omega) hn'
          have := h a
          simp only [Memory.read, if_true, Nat.ne_of_lt hlt, if_false, hb] at this
          exact absurd this hv
        · exact heq
        · have ha : Memory.read bg m b = bg b := Memory.read_below (lo := a + 1) (by omega) hm'
          have := h b
          simp only [Memory.read, if_true, Nat.ne_of_lt hgt, if_false, ha] at this
          exact absurd this.symm hw
      subst hab
      have hvw : v = w := by simpa [Memory.read] using h a
      subst hvw
      have : m = n := by
        refine ih hm' hn' fun c => ?_
        by_cases hc : c = a
        · subst hc
          rw [Memory.read_below (Nat.lt_succ_self c) hm', Memory.read_below (Nat.lt_succ_self c) hn']
        · simpa [Memory.read, hc] using h c
      rw [this]

end Sys2Proof.Machine
end

