-- ==== Sys2Proof/Laws/State.lean ====
section
/-!
SUPPORT. One lemma per field per update of the state: what each named update leaves in each field. The
derived updates (skip, rewind, the flag, the phases of a Step) reduce to these.
-/

namespace Sys2Proof.Machine

/-! ### `setReg` -/

@[simp] theorem State.setReg_mem (s : State) (r : Reg) (v : Byte) : (s.setReg r v).mem = s.mem := rfl
@[simp] theorem State.setReg_x (s : State) (r : Reg) (v : Byte) : (s.setReg r v).x = s.x.set r.val v r.isLt := rfl
@[simp] theorem State.setReg_index (s : State) (r : Reg) (v : Byte) : (s.setReg r v).index = s.index := rfl
@[simp] theorem State.setReg_pc (s : State) (r : Reg) (v : Byte) : (s.setReg r v).pc = s.pc := rfl
@[simp] theorem State.setReg_stack (s : State) (r : Reg) (v : Byte) : (s.setReg r v).stack = s.stack := rfl
@[simp] theorem State.setReg_sp (s : State) (r : Reg) (v : Byte) : (s.setReg r v).sp = s.sp := rfl
@[simp] theorem State.setReg_dt (s : State) (r : Reg) (v : Byte) : (s.setReg r v).dt = s.dt := rfl
@[simp] theorem State.setReg_st (s : State) (r : Reg) (v : Byte) : (s.setReg r v).st = s.st := rfl
@[simp] theorem State.setReg_key (s : State) (r : Reg) (v : Byte) : (s.setReg r v).key = s.key := rfl
@[simp] theorem State.setReg_pix (s : State) (r : Reg) (v : Byte) : (s.setReg r v).pix = s.pix := rfl
@[simp] theorem State.setReg_draw (s : State) (r : Reg) (v : Byte) : (s.setReg r v).draw = s.draw := rfl
@[simp] theorem State.setReg_tLast (s : State) (r : Reg) (v : Byte) : (s.setReg r v).tLast = s.tLast := rfl
@[simp] theorem State.setReg_cfg (s : State) (r : Reg) (v : Byte) : (s.setReg r v).cfg = s.cfg := rfl
@[simp] theorem State.setReg_rnd (s : State) (r : Reg) (v : Byte) : (s.setReg r v).rnd = s.rnd := rfl
@[simp] theorem State.setReg_outcome (s : State) (r : Reg) (v : Byte) : (s.setReg r v).outcome = s.outcome := rfl
@[simp] theorem State.setReg_errSeen (s : State) (r : Reg) (v : Byte) : (s.setReg r v).errSeen = s.errSeen := rfl
@[simp] theorem State.setReg_loadOpen (s : State) (r : Reg) (v : Byte) : (s.setReg r v).loadOpen = s.loadOpen := rfl
@[simp] theorem State.setReg_pending (s : State) (r : Reg) (v : Byte) : (s.setReg r v).pending = s.pending := rfl
@[simp] theorem State.setReg_stepNo (s : State) (r : Reg) (v : Byte) : (s.setReg r v).stepNo = s.stepNo := rfl

/-! ### `setIndex` -/

@[simp] theorem State.setIndex_mem (s : State) (v : Word) : (s.setIndex v).mem = s.mem := rfl
@[simp] theorem State.setIndex_x (s : State) (v : Word) : (s.setIndex v).x = s.x := rfl
@[simp] theorem State.setIndex_index (s : State) (v : Word) : (s.setIndex v).index = v := rfl
@[simp] theorem State.setIndex_pc (s : State) (v : Word) : (s.setIndex v).pc = s.pc := rfl
@[simp] theorem State.setIndex_stack (s : State) (v : Word) : (s.setIndex v).stack = s.stack := rfl
@[simp] theorem State.setIndex_sp (s : State) (v : Word) : (s.setIndex v).sp = s.sp := rfl
@[simp] theorem State.setIndex_dt (s : State) (v : Word) : (s.setIndex v).dt = s.dt := rfl
@[simp] theorem State.setIndex_st (s : State) (v : Word) : (s.setIndex v).st = s.st := rfl
@[simp] theorem State.setIndex_key (s : State) (v : Word) : (s.setIndex v).key = s.key := rfl
@[simp] theorem State.setIndex_pix (s : State) (v : Word) : (s.setIndex v).pix = s.pix := rfl
@[simp] theorem State.setIndex_draw (s : State) (v : Word) : (s.setIndex v).draw = s.draw := rfl
@[simp] theorem State.setIndex_tLast (s : State) (v : Word) : (s.setIndex v).tLast = s.tLast := rfl
@[simp] theorem State.setIndex_cfg (s : State) (v : Word) : (s.setIndex v).cfg = s.cfg := rfl
@[simp] theorem State.setIndex_rnd (s : State) (v : Word) : (s.setIndex v).rnd = s.rnd := rfl
@[simp] theorem State.setIndex_outcome (s : State) (v : Word) : (s.setIndex v).outcome = s.outcome := rfl
@[simp] theorem State.setIndex_errSeen (s : State) (v : Word) : (s.setIndex v).errSeen = s.errSeen := rfl
@[simp] theorem State.setIndex_loadOpen (s : State) (v : Word) : (s.setIndex v).loadOpen = s.loadOpen := rfl
@[simp] theorem State.setIndex_pending (s : State) (v : Word) : (s.setIndex v).pending = s.pending := rfl
@[simp] theorem State.setIndex_stepNo (s : State) (v : Word) : (s.setIndex v).stepNo = s.stepNo := rfl

/-! ### `setDt` -/

@[simp] theorem State.setDt_mem (s : State) (v : Byte) : (s.setDt v).mem = s.mem := rfl
@[simp] theorem State.setDt_x (s : State) (v : Byte) : (s.setDt v).x = s.x := rfl
@[simp] theorem State.setDt_index (s : State) (v : Byte) : (s.setDt v).index = s.index := rfl
@[simp] theorem State.setDt_pc (s : State) (v : Byte) : (s.setDt v).pc = s.pc := rfl
@[simp] theorem State.setDt_stack (s : State) (v : Byte) : (s.setDt v).stack = s.stack := rfl
@[simp] theorem State.setDt_sp (s : State) (v : Byte) : (s.setDt v).sp = s.sp := rfl
@[simp] theorem State.setDt_dt (s : State) (v : Byte) : (s.setDt v).dt = v := rfl
@[simp] theorem State.setDt_st (s : State) (v : Byte) : (s.setDt v).st = s.st := rfl
@[simp] theorem State.setDt_key (s : State) (v : Byte) : (s.setDt v).key = s.key := rfl
@[simp] theorem State.setDt_pix (s : State) (v : Byte) : (s.setDt v).pix = s.pix := rfl
@[simp] theorem State.setDt_draw (s : State) (v : Byte) : (s.setDt v).draw = s.draw := rfl
@[simp] theorem State.setDt_tLast (s : State) (v : Byte) : (s.setDt v).tLast = s.tLast := rfl
@[simp] theorem State.setDt_cfg (s : State) (v : Byte) : (s.setDt v).cfg = s.cfg := rfl
@[simp] theorem State.setDt_rnd (s : State) (v : Byte) : (s.setDt v).rnd = s.rnd := rfl
@[simp] theorem State.setDt_outcome (s : State) (v : Byte) : (s.setDt v).outcome = s.outcome := rfl
@[simp] theorem State.setDt_errSeen (s : State) (v : Byte) : (s.setDt v).errSeen = s.errSeen := rfl
@[simp] theorem State.setDt_loadOpen (s : State) (v : Byte) : (s.setDt v).loadOpen = s.loadOpen := rfl
@[simp] theorem State.setDt_pending (s : State) (v : Byte) : (s.setDt v).pending = s.pending := rfl
@[simp] theorem State.setDt_stepNo (s : State) (v : Byte) : (s.setDt v).stepNo = s.stepNo := rfl

/-! ### `setSt` -/

@[simp] theorem State.setSt_mem (s : State) (v : Byte) : (s.setSt v).mem = s.mem := rfl
@[simp] theorem State.setSt_x (s : State) (v : Byte) : (s.setSt v).x = s.x := rfl
@[simp] theorem State.setSt_index (s : State) (v : Byte) : (s.setSt v).index = s.index := rfl
@[simp] theorem State.setSt_pc (s : State) (v : Byte) : (s.setSt v).pc = s.pc := rfl
@[simp] theorem State.setSt_stack (s : State) (v : Byte) : (s.setSt v).stack = s.stack := rfl
@[simp] theorem State.setSt_sp (s : State) (v : Byte) : (s.setSt v).sp = s.sp := rfl
@[simp] theorem State.setSt_dt (s : State) (v : Byte) : (s.setSt v).dt = s.dt := rfl
@[simp] theorem State.setSt_st (s : State) (v : Byte) : (s.setSt v).st = v := rfl
@[simp] theorem State.setSt_key (s : State) (v : Byte) : (s.setSt v).key = s.key := rfl
@[simp] theorem State.setSt_pix (s : State) (v : Byte) : (s.setSt v).pix = s.pix := rfl
@[simp] theorem State.setSt_draw (s : State) (v : Byte) : (s.setSt v).draw = s.draw := rfl
@[simp] theorem State.setSt_tLast (s : State) (v : Byte) : (s.setSt v).tLast = s.tLast := rfl
@[simp] theorem State.setSt_cfg (s : State) (v : Byte) : (s.setSt v).cfg = s.cfg := rfl
@[simp] theorem State.setSt_rnd (s : State) (v : Byte) : (s.setSt v).rnd = s.rnd := rfl
@[simp] theorem State.setSt_outcome (s : State) (v : Byte) : (s.setSt v).outcome = s.outcome := rfl
@[simp] theorem State.setSt_errSeen (s : State) (v : Byte) : (s.setSt v).errSeen = s.errSeen := rfl
@[simp] theorem State.setSt_loadOpen (s : State) (v : Byte) : (s.setSt v).loadOpen = s.loadOpen := rfl
@[simp] theorem State.setSt_pending (s : State) (v : Byte) : (s.setSt v).pending = s.pending := rfl
@[simp] theorem State.setSt_stepNo (s : State) (v : Byte) : (s.setSt v).stepNo = s.stepNo := rfl

/-! ### `setPc` -/

@[simp] theorem State.setPc_mem (s : State) (v : Word) : (s.setPc v).mem = s.mem := rfl
@[simp] theorem State.setPc_x (s : State) (v : Word) : (s.setPc v).x = s.x := rfl
@[simp] theorem State.setPc_index (s : State) (v : Word) : (s.setPc v).index = s.index := rfl
@[simp] theorem State.setPc_pc (s : State) (v : Word) : (s.setPc v).pc = v := rfl
@[simp] theorem State.setPc_stack (s : State) (v : Word) : (s.setPc v).stack = s.stack := rfl
@[simp] theorem State.setPc_sp (s : State) (v : Word) : (s.setPc v).sp = s.sp := rfl
@[simp] theorem State.setPc_dt (s : State) (v : Word) : (s.setPc v).dt = s.dt := rfl
@[simp] theorem State.setPc_st (s : State) (v : Word) : (s.setPc v).st = s.st := rfl
@[simp] theorem State.setPc_key (s : State) (v : Word) : (s.setPc v).key = s.key := rfl
@[simp] theorem State.setPc_pix (s : State) (v : Word) : (s.setPc v).pix = s.pix := rfl
@[simp] theorem State.setPc_draw (s : State) (v : Word) : (s.setPc v).draw = s.draw := rfl
@[simp] theorem State.setPc_tLast (s : State) (v : Word) : (s.setPc v).tLast = s.tLast := rfl
@[simp] theorem State.setPc_cfg (s : State) (v : Word) : (s.setPc v).cfg = s.cfg := rfl
@[simp] theorem State.setPc_rnd (s : State) (v : Word) : (s.setPc v).rnd = s.rnd := rfl
@[simp] theorem State.setPc_outcome (s : State) (v : Word) : (s.setPc v).outcome = s.outcome := rfl
@[simp] theorem State.setPc_errSeen (s : State) (v : Word) : (s.setPc v).errSeen = s.errSeen := rfl
@[simp] theorem State.setPc_loadOpen (s : State) (v : Word) : (s.setPc v).loadOpen = s.loadOpen := rfl
@[simp] theorem State.setPc_pending (s : State) (v : Word) : (s.setPc v).pending = s.pending := rfl
@[simp] theorem State.setPc_stepNo (s : State) (v : Word) : (s.setPc v).stepNo = s.stepNo := rfl

/-! ### `report` -/

@[simp] theorem State.report_mem (s : State) (e : StepError) : (s.report e).mem = s.mem := rfl
@[simp] theorem State.report_x (s : State) (e : StepError) : (s.report e).x = s.x := rfl
@[simp] theorem State.report_index (s : State) (e : StepError) : (s.report e).index = s.index := rfl
@[simp] theorem State.report_pc (s : State) (e : StepError) : (s.report e).pc = s.pc := rfl
@[simp] theorem State.report_stack (s : State) (e : StepError) : (s.report e).stack = s.stack := rfl
@[simp] theorem State.report_sp (s : State) (e : StepError) : (s.report e).sp = s.sp := rfl
@[simp] theorem State.report_dt (s : State) (e : StepError) : (s.report e).dt = s.dt := rfl
@[simp] theorem State.report_st (s : State) (e : StepError) : (s.report e).st = s.st := rfl
@[simp] theorem State.report_key (s : State) (e : StepError) : (s.report e).key = s.key := rfl
@[simp] theorem State.report_pix (s : State) (e : StepError) : (s.report e).pix = s.pix := rfl
@[simp] theorem State.report_draw (s : State) (e : StepError) : (s.report e).draw = s.draw := rfl
@[simp] theorem State.report_tLast (s : State) (e : StepError) : (s.report e).tLast = s.tLast := rfl
@[simp] theorem State.report_cfg (s : State) (e : StepError) : (s.report e).cfg = s.cfg := rfl
@[simp] theorem State.report_rnd (s : State) (e : StepError) : (s.report e).rnd = s.rnd := rfl
@[simp] theorem State.report_outcome (s : State) (e : StepError) : (s.report e).outcome = .err e := rfl
@[simp] theorem State.report_errSeen (s : State) (e : StepError) : (s.report e).errSeen = true := rfl
@[simp] theorem State.report_loadOpen (s : State) (e : StepError) : (s.report e).loadOpen = s.loadOpen := rfl
@[simp] theorem State.report_pending (s : State) (e : StepError) : (s.report e).pending = s.pending := rfl
@[simp] theorem State.report_stepNo (s : State) (e : StepError) : (s.report e).stepNo = s.stepNo := rfl

/-! ### `takeInput` -/

@[simp] theorem State.takeInput_mem (s : State) : (s.takeInput).mem = s.mem := rfl
@[simp] theorem State.takeInput_x (s : State) : (s.takeInput).x = s.x := rfl
@[simp] theorem State.takeInput_index (s : State) : (s.takeInput).index = s.index := rfl
@[simp] theorem State.takeInput_pc (s : State) : (s.takeInput).pc = s.pc := rfl
@[simp] theorem State.takeInput_stack (s : State) : (s.takeInput).stack = s.stack := rfl
@[simp] theorem State.takeInput_sp (s : State) : (s.takeInput).sp = s.sp := rfl
@[simp] theorem State.takeInput_dt (s : State) : (s.takeInput).dt = s.dt := rfl
@[simp] theorem State.takeInput_st (s : State) : (s.takeInput).st = s.st := rfl
@[simp] theorem State.takeInput_key (s : State) : (s.takeInput).key = s.key := rfl
@[simp] theorem State.takeInput_pix (s : State) : (s.takeInput).pix = s.pix := rfl
@[simp] theorem State.takeInput_draw (s : State) : (s.takeInput).draw = s.draw := rfl
@[simp] theorem State.takeInput_tLast (s : State) : (s.takeInput).tLast = s.tLast := rfl
@[simp] theorem State.takeInput_cfg (s : State) : (s.takeInput).cfg = s.cfg := rfl
@[simp] theorem State.takeInput_rnd (s : State) : (s.takeInput).rnd = s.rnd := rfl
@[simp] theorem State.takeInput_outcome (s : State) : (s.takeInput).outcome = s.outcome := rfl
@[simp] theorem State.takeInput_errSeen (s : State) : (s.takeInput).errSeen = s.errSeen := rfl
@[simp] theorem State.takeInput_loadOpen (s : State) : (s.takeInput).loadOpen = s.loadOpen := rfl
@[simp] theorem State.takeInput_pending (s : State) : (s.takeInput).pending = s.pending.tail := rfl
@[simp] theorem State.takeInput_stepNo (s : State) : (s.takeInput).stepNo = s.stepNo + 1 := rfl

/-! ### `beginStep` -/

@[simp] theorem State.beginStep_mem (s : State) : (s.beginStep).mem = s.mem := rfl
@[simp] theorem State.beginStep_x (s : State) : (s.beginStep).x = s.x := rfl
@[simp] theorem State.beginStep_index (s : State) : (s.beginStep).index = s.index := rfl
@[simp] theorem State.beginStep_pc (s : State) : (s.beginStep).pc = s.pc := rfl
@[simp] theorem State.beginStep_stack (s : State) : (s.beginStep).stack = s.stack := rfl
@[simp] theorem State.beginStep_sp (s : State) : (s.beginStep).sp = s.sp := rfl
@[simp] theorem State.beginStep_dt (s : State) : (s.beginStep).dt = s.dt := rfl
@[simp] theorem State.beginStep_st (s : State) : (s.beginStep).st = s.st := rfl
@[simp] theorem State.beginStep_key (s : State) : (s.beginStep).key = s.key := rfl
@[simp] theorem State.beginStep_pix (s : State) : (s.beginStep).pix = s.pix := rfl
@[simp] theorem State.beginStep_draw (s : State) : (s.beginStep).draw = s.draw := rfl
@[simp] theorem State.beginStep_tLast (s : State) : (s.beginStep).tLast = s.tLast := rfl
@[simp] theorem State.beginStep_cfg (s : State) : (s.beginStep).cfg = s.cfg := rfl
@[simp] theorem State.beginStep_rnd (s : State) : (s.beginStep).rnd = s.rnd := rfl
@[simp] theorem State.beginStep_outcome (s : State) : (s.beginStep).outcome = .ok := rfl
@[simp] theorem State.beginStep_errSeen (s : State) : (s.beginStep).errSeen = s.errSeen := rfl
@[simp] theorem State.beginStep_loadOpen (s : State) : (s.beginStep).loadOpen = false := rfl
@[simp] theorem State.beginStep_pending (s : State) : (s.beginStep).pending = s.pending := rfl
@[simp] theorem State.beginStep_stepNo (s : State) : (s.beginStep).stepNo = s.stepNo := rfl

/-! ### `latch` -/

@[simp] theorem State.latch_mem (s : State) (i : HostInput) : (s.latch i).mem = s.mem := rfl
@[simp] theorem State.latch_x (s : State) (i : HostInput) : (s.latch i).x = s.x := rfl
@[simp] theorem State.latch_index (s : State) (i : HostInput) : (s.latch i).index = s.index := rfl
@[simp] theorem State.latch_pc (s : State) (i : HostInput) : (s.latch i).pc = s.pc := rfl
@[simp] theorem State.latch_stack (s : State) (i : HostInput) : (s.latch i).stack = s.stack := rfl
@[simp] theorem State.latch_sp (s : State) (i : HostInput) : (s.latch i).sp = s.sp := rfl
@[simp] theorem State.latch_dt (s : State) (i : HostInput) : (s.latch i).dt = s.dt := rfl
@[simp] theorem State.latch_st (s : State) (i : HostInput) : (s.latch i).st = s.st := rfl
@[simp] theorem State.latch_key (s : State) (i : HostInput) : (s.latch i).key = i.keysIn := rfl
@[simp] theorem State.latch_pix (s : State) (i : HostInput) : (s.latch i).pix = s.pix := rfl
@[simp] theorem State.latch_draw (s : State) (i : HostInput) : (s.latch i).draw = s.draw := rfl
@[simp] theorem State.latch_tLast (s : State) (i : HostInput) : (s.latch i).tLast = s.tLast := rfl
@[simp] theorem State.latch_cfg (s : State) (i : HostInput) : (s.latch i).cfg = s.cfg := rfl
@[simp] theorem State.latch_rnd (s : State) (i : HostInput) : (s.latch i).rnd = i.rnd := rfl
@[simp] theorem State.latch_outcome (s : State) (i : HostInput) : (s.latch i).outcome = s.outcome := rfl
@[simp] theorem State.latch_errSeen (s : State) (i : HostInput) : (s.latch i).errSeen = s.errSeen := rfl
@[simp] theorem State.latch_loadOpen (s : State) (i : HostInput) : (s.latch i).loadOpen = s.loadOpen := rfl
@[simp] theorem State.latch_pending (s : State) (i : HostInput) : (s.latch i).pending = s.pending := rfl
@[simp] theorem State.latch_stepNo (s : State) (i : HostInput) : (s.latch i).stepNo = s.stepNo := rfl

/-! ### `tickTimers` -/

@[simp] theorem tickTimers_mem (n : Nat) (s : State) : (tickTimers n s).mem = s.mem := rfl
@[simp] theorem tickTimers_x (n : Nat) (s : State) : (tickTimers n s).x = s.x := rfl
@[simp] theorem tickTimers_index (n : Nat) (s : State) : (tickTimers n s).index = s.index := rfl
@[simp] theorem tickTimers_pc (n : Nat) (s : State) : (tickTimers n s).pc = s.pc := rfl
@[simp] theorem tickTimers_stack (n : Nat) (s : State) : (tickTimers n s).stack = s.stack := rfl
@[simp] theorem tickTimers_sp (n : Nat) (s : State) : (tickTimers n s).sp = s.sp := rfl
@[simp] theorem tickTimers_dt (n : Nat) (s : State) : (tickTimers n s).dt = decay s.dt n := rfl
@[simp] theorem tickTimers_st (n : Nat) (s : State) : (tickTimers n s).st = decay s.st n := rfl
@[simp] theorem tickTimers_key (n : Nat) (s : State) : (tickTimers n s).key = s.key := rfl
@[simp] theorem tickTimers_pix (n : Nat) (s : State) : (tickTimers n s).pix = s.pix := rfl
@[simp] theorem tickTimers_draw (n : Nat) (s : State) : (tickTimers n s).draw = s.draw := rfl
@[simp] theorem tickTimers_tLast (n : Nat) (s : State) : (tickTimers n s).tLast = s.tLast + n := rfl
@[simp] theorem tickTimers_cfg (n : Nat) (s : State) : (tickTimers n s).cfg = s.cfg := rfl
@[simp] theorem tickTimers_rnd (n : Nat) (s : State) : (tickTimers n s).rnd = s.rnd := rfl
@[simp] theorem tickTimers_outcome (n : Nat) (s : State) : (tickTimers n s).outcome = s.outcome := rfl
@[simp] theorem tickTimers_errSeen (n : Nat) (s : State) : (tickTimers n s).errSeen = s.errSeen := rfl
@[simp] theorem tickTimers_loadOpen (n : Nat) (s : State) : (tickTimers n s).loadOpen = s.loadOpen := rfl
@[simp] theorem tickTimers_pending (n : Nat) (s : State) : (tickTimers n s).pending = s.pending := rfl
@[simp] theorem tickTimers_stepNo (n : Nat) (s : State) : (tickTimers n s).stepNo = s.stepNo := rfl

/-! ### Derived updates -/

@[simp] theorem State.skip_eq (s : State) : s.skip = s.setPc (s.pc + 2) := rfl
@[simp] theorem State.rewind_eq (s : State) : s.rewind = s.setPc (s.pc - 2) := rfl
@[simp] theorem State.skipIf_true (s : State) : s.skipIf true = s.setPc (s.pc + 2) := rfl
@[simp] theorem State.skipIf_false (s : State) : s.skipIf false = s := rfl

/-- A skip, taken or not, as one update of the pc. -/
theorem State.skipIf_eq (s : State) (b : Bool) : s.skipIf b = s.setPc (if b then s.pc + 2 else s.pc) := by
  cases b <;> rfl
@[simp] theorem State.setFlag_eq (s : State) (b : Bool) : s.setFlag b = s.setReg regF (bitByte b) := rfl
@[simp] theorem State.setFlagThenReg_eq (s : State) (f : Bool) (r : Reg) (v : Byte) :
    s.setFlagThenReg f r v = (s.setReg regF (bitByte f)).setReg r v := rfl
@[simp] theorem State.afterInputs_eq (s : State) (i : HostInput) :
    s.afterInputs i = (tickTimers i.ticks s.beginStep).latch i := rfl

/-- The register just written holds the value. -/
@[simp] theorem State.reg_setReg_self (s : State) (r : Reg) (v : Byte) : (s.setReg r v).reg r = v := by
  simp [State.reg, State.setReg, Vector.get_eq_getElem]

/-- Every other register is as before. -/
theorem State.reg_setReg_other (s : State) {q r : Reg} (v : Byte) (h : q ≠ r) :
    (s.setReg r v).reg q = s.reg q := by
  have hv : r.val ≠ q.val := fun e => h (Fin.ext e.symm)
  simp [State.reg, State.setReg, Vector.get_eq_getElem, Vector.getElem_set_ne, hv]

/-- A register after a write, both cases at once. -/
theorem State.reg_setReg (s : State) (q r : Reg) (v : Byte) :
    (s.setReg r v).reg q = if q = r then v else s.reg q := by
  by_cases h : q = r
  · subst h; simp
  · simp [State.reg_setReg_other s v h, h]

/-- What memory reads as depends on the cells and the parameters alone. -/
theorem State.peek_congr {s t : State} (hm : t.mem = s.mem) (hc : t.cfg = s.cfg) (a : Nat) :
    t.peek a = s.peek a := by
  simp [State.peek, hm, hc]

end Sys2Proof.Machine
end

