-- ==== Sys2Proof/Laws/Ops.lean ====
section
/-!
SUPPORT. What each shared operation can do, once: memory bytes, ranges, register loads, the stack, keys.
-/

namespace Sys2Proof.Machine

/-! ### The end of an instruction -/

@[simp] theorem settle_ok (s t : State) : settle s (.ok t) = .next t := rfl

@[simp] theorem settle_error (s : State) (e : StepError) : settle s (.error e) = .next (s.report e) := rfl

/-- An instruction that settles always answers a next state: the new one, or the old one with the report. -/
theorem settle_next (s : State) (r : Except StepError State) :
    ∃ t, settle s r = .next t ∧ (r = .ok t ∨ ∃ e, r = .error e ∧ t = s.report e) := by
  cases r with
  | ok t => exact ⟨t, rfl, .inl rfl⟩
  | error e => exact ⟨_, rfl, .inr ⟨e, rfl, rfl⟩⟩

/-! ### One byte of memory -/

/-- A poke changes memory alone. -/
theorem State.poke_eq (s : State) (a : Nat) (v : Byte) : s.poke a v = { s with mem := (s.poke a v).mem } := by
  unfold State.poke; split <;> rfl

@[simp] theorem State.poke_cfg (s : State) (a : Nat) (v : Byte) : (s.poke a v).cfg = s.cfg := by
  rw [State.poke_eq]

theorem State.peek_poke_self (s : State) {a : Nat} (v : Byte) (h : a < 4096) : (s.poke a v).peek a = v := by
  have hp : s.poke a v = { s with mem := Memory.write s.cfg.resetByte s.mem a v } := if_pos h
  rw [hp]; exact Memory.read_write_self _ _ _ _

theorem State.peek_poke_other (s : State) {a b : Nat} (v : Byte) (h : b ≠ a) :
    (s.poke a v).peek b = s.peek b := by
  unfold State.poke
  split
  · exact Memory.read_write_other _ _ v h
  · rfl

theorem State.memOk_poke {s : State} (a : Nat) (v : Byte) (h : s.MemOk) : (s.poke a v).MemOk := by
  unfold State.poke
  split
  · exact Memory.wf_write v ‹_› h
  · exact h

/-! ### Bytes at ascending addresses -/

theorem State.pokes_eq (s : State) (base : Nat) (vs : List Byte) :
    s.pokes base vs = { s with mem := (s.pokes base vs).mem } := by
  induction vs generalizing s base with
  | nil => rfl
  | cons v vs ih => rw [State.pokes, ih, s.poke_eq]

@[simp] theorem State.pokes_cfg (s : State) (base : Nat) (vs : List Byte) :
    (s.pokes base vs).cfg = s.cfg := by
  rw [State.pokes_eq]

theorem State.memOk_pokes {s : State} (base : Nat) (vs : List Byte) (h : s.MemOk) :
    (s.pokes base vs).MemOk := by
  induction vs generalizing s base with
  | nil => exact h
  | cons v vs ih => exact ih _ (State.memOk_poke _ _ h)

/-- Outside the bytes stored, memory reads as before. -/
theorem State.peek_pokes_outside (s : State) {base : Nat} (vs : List Byte) {a : Nat}
    (h : a < base ∨ base + vs.length ≤ a) : (s.pokes base vs).peek a = s.peek a := by
  induction vs generalizing s base with
  | nil => rfl
  | cons v vs ih =>
    simp only [List.length_cons] at h
    rw [State.pokes, ih _ (by omega), State.peek_poke_other _ _ (by omega)]

/-- The k-th byte stored is read back at `base + k`. -/
theorem State.peek_pokes_inside (s : State) {base : Nat} (vs : List Byte) {k : Nat} (hk : k < vs.length)
    (hb : base + vs.length ≤ 4096) : (s.pokes base vs).peek (base + k) = vs[k] := by
  induction vs generalizing s base k with
  | nil => simp at hk
  | cons v vs ih =>
    simp only [List.length_cons] at hk hb
    cases k with
    | zero =>
      rw [State.pokes, State.peek_pokes_outside _ _ (by omega), Nat.add_zero,
        State.peek_poke_self _ _ (by omega)]
      rfl
    | succ k =>
      rw [State.pokes, show base + (k + 1) = base + 1 + k by omega, ih _ (by omega) (by omega)]
      rfl

/-! ### Ranges -/

theorem rangeOk_iff (base n : Nat) : rangeOk base n = true ↔ n = 0 ∨ base + n - 1 ≤ 0xFFF := by
  simp [rangeOk]

/-- Storing bytes: all of them where the range lies in memory. -/
theorem writeBytes_ok {base : Nat} {vs : List Byte} (s : State)
    (h : vs.length = 0 ∨ base + vs.length - 1 ≤ 0xFFF) : writeBytes base vs s = .ok (s.pokes base vs) := by
  simp [writeBytes, (rangeOk_iff _ _).mpr h]

/-- Storing bytes: none of them, and the address error, where the range leaves memory. -/
theorem writeBytes_error {base : Nat} {vs : List Byte} (s : State)
    (h : ¬(vs.length = 0 ∨ base + vs.length - 1 ≤ 0xFFF)) :
    writeBytes base vs s = .error (.addressError base) := by
  have : rangeOk base vs.length = false := by
    rw [Bool.eq_false_iff]; exact fun e => h ((rangeOk_iff _ _).mp e)
  simp [writeBytes, this]

theorem readBytes_ok {base n : Nat} (s : State) (h : n = 0 ∨ base + n - 1 ≤ 0xFFF) :
    readBytes base n s = .ok ((List.range n).map fun i => s.peek (base + i)) := by
  simp [readBytes, (rangeOk_iff _ _).mpr h]

theorem readBytes_error {base n : Nat} (s : State) (h : ¬(n = 0 ∨ base + n - 1 ≤ 0xFFF)) :
    readBytes base n s = .error (.addressError base) := by
  have : rangeOk base n = false := by
    rw [Bool.eq_false_iff]; exact fun e => h ((rangeOk_iff _ _).mp e)
  simp [readBytes, this]

/-- The bytes DXYN reads, where every one that is drawn lies in memory. -/
theorem readSprite_ok {s : State} {y : Reg} {n : BitVec 4} (h : SpriteInMemory s y n) :
    readBytes s.base (s.spriteRows n (s.originRow y)) s =
      .ok ((List.range (rowsDrawn s y n)).map fun i => s.peek (s.index.toNat + i)) :=
  readBytes_ok s h

theorem readSprite_error {s : State} {y : Reg} {n : BitVec 4} (h : ¬SpriteInMemory s y n) :
    readBytes s.base (s.spriteRows n (s.originRow y)) s = .error (.addressError s.index.toNat) :=
  readBytes_error s h

/-- The fetch: the two bytes at `pc`, the high one first, where both lie in memory. -/
theorem fetch_ok (s : State) (h : s.pc.toNat ≤ 0xFFE) :
    fetch s = .ok (s.peek s.pc.toNat ++ s.peek (s.pc.toNat + 1)) := by
  simp only [fetch, memRead2]
  rw [if_neg (by omega)]

theorem fetch_error (s : State) (h : s.pc.toNat > 0xFFE) : fetch s = .error (.addressError s.pc.toNat) := by
  simp only [fetch, memRead2]
  rw [if_pos (by omega)]

/-! ### Registers from memory -/

/-- A register outside the range loaded is as before. -/
theorem loadRegs_outside (x : Vector Byte 16) {k : Nat} (vs : List Byte) (r : Fin 16)
    (h : r.val < k ∨ k + vs.length ≤ r.val) : (loadRegs x k vs).get r = x.get r := by
  induction vs generalizing x k with
  | nil => rfl
  | cons v vs ih =>
    simp only [List.length_cons] at h
    rw [loadRegs, ih _ (by omega)]
    split
    · simp only [Vector.get_eq_getElem]
      exact Vector.getElem_set_ne _ _ (by omega)
    · rfl

/-- The i-th byte loaded is in register `k + i`. -/
theorem loadRegs_inside (x : Vector Byte 16) {k : Nat} (vs : List Byte) (r : Fin 16) (i : Nat)
    (hi : i < vs.length) (hr : r.val = k + i) : (loadRegs x k vs).get r = vs[i] := by
  induction vs generalizing x k i with
  | nil => simp at hi
  | cons v vs ih =>
    rw [loadRegs]
    cases i with
    | zero =>
      rw [loadRegs_outside _ _ _ (by omega)]
      have hk : k < 16 := by have := r.isLt; omega
      have hrk : r.val = k := by omega
      simp [hk, Vector.get_eq_getElem, hrk]
    | succ i =>
      simp only [List.length_cons] at hi
      rw [ih _ i (by omega) (by omega)]
      rfl

/-! ### The stack -/

theorem State.push_full {s : State} (v : Word) (h : s.sp.val = 16) : s.push v = .error .stackOverflow := by
  unfold State.push; rw [dif_neg (by omega)]

theorem State.push_ok {s : State} (v : Word) (h : s.sp.val < 16) :
    s.push v = .ok { s with stack := s.stack.set s.sp.val v h, sp := ⟨s.sp.val + 1, by omega⟩ } := by
  unfold State.push; rw [dif_pos h]

theorem State.popPc_empty {s : State} (h : s.sp.val = 0) : s.popPc = .error .stackUnderflow := by
  unfold State.popPc; rw [dif_pos h]

theorem State.popPc_ok {s : State} (h : s.sp.val ≠ 0) :
    s.popPc = .ok { s with
      sp := ⟨s.sp.val - 1, by omega⟩
      pc := s.stack[s.sp.val - 1]'(by have := s.sp.isLt; simp; omega) } := by
  unfold State.popPc; rw [dif_neg h]

/-! ### Keys -/

theorem State.keyNumber_ok {s : State} {x : Reg} (h : (s.reg x).toNat < 16) :
    s.keyNumber x = .ok ⟨(s.reg x).toNat, h⟩ := by
  unfold State.keyNumber; rw [dif_pos h]

theorem State.keyNumber_error {s : State} {x : Reg} (h : ¬(s.reg x).toNat < 16) :
    s.keyNumber x = .error (.keyIndexError (s.reg x)) := by
  unfold State.keyNumber; rw [dif_neg h]

/-- No key is the lowest one down exactly where none is down. -/
theorem State.lowestKey_eq_none (s : State) : s.lowestKey = none ↔ ∀ k, s.keyDown k = false := by
  simp [State.lowestKey, List.find?_eq_none]

end Sys2Proof.Machine
end

