-- ==== Sys2Proof/Laws/PerInstr.lean ====
section
/-!
SUPPORT. The family Encoded, one lemma per instruction: its operands fit its format, its row stands in the
table of 30_encoding R84, and that row selects the word it is encoded as.
-/

namespace Sys2Proof.Laws.Encoded

/-- The row an instruction belongs to is in the table and selects the instruction's word. -/
def Statement (i : Instr) : Prop :=
  WellFormed i = true ∧ rowOf i ∈ opcodeTable ∧ encode i &&& (rowOf i).mask = (rowOf i).value

theorem cls : Statement .cls := ⟨wellFormed_all _, by simp [opcodeTable, rowOf], rfl⟩
theorem ret : Statement .ret := ⟨wellFormed_all _, by simp [opcodeTable, rowOf], rfl⟩
theorem jp (nnn : BitVec 12) : Statement (.jp nnn) := ⟨wellFormed_all _, by simp [opcodeTable, rowOf], and_wordA _ nnn⟩
theorem call (nnn : BitVec 12) : Statement (.call nnn) := ⟨wellFormed_all _, by simp [opcodeTable, rowOf], and_wordA _ nnn⟩
theorem seImm (x : Reg) (nn : Byte) : Statement (.seImm x nn) := ⟨wellFormed_all _, by simp [opcodeTable, rowOf], and_wordRI_top _ x nn⟩
theorem sneImm (x : Reg) (nn : Byte) : Statement (.sneImm x nn) := ⟨wellFormed_all _, by simp [opcodeTable, rowOf], and_wordRI_top _ x nn⟩
theorem seReg (x : Reg) (y : Reg) : Statement (.seReg x y) := ⟨wellFormed_all _, by simp [opcodeTable, rowOf], and_wordRRN_fn _ x y _⟩
theorem sneReg (x : Reg) (y : Reg) : Statement (.sneReg x y) := ⟨wellFormed_all _, by simp [opcodeTable, rowOf], and_wordRRN_fn _ x y _⟩
theorem ldImm (x : Reg) (nn : Byte) : Statement (.ldImm x nn) := ⟨wellFormed_all _, by simp [opcodeTable, rowOf], and_wordRI_top _ x nn⟩
theorem addImm (x : Reg) (nn : Byte) : Statement (.addImm x nn) := ⟨wellFormed_all _, by simp [opcodeTable, rowOf], and_wordRI_top _ x nn⟩
theorem ldReg (x : Reg) (y : Reg) : Statement (.ldReg x y) := ⟨wellFormed_all _, by simp [opcodeTable, rowOf], and_wordRRN_fn _ x y _⟩
theorem orReg (x : Reg) (y : Reg) : Statement (.orReg x y) := ⟨wellFormed_all _, by simp [opcodeTable, rowOf], and_wordRRN_fn _ x y _⟩
theorem andReg (x : Reg) (y : Reg) : Statement (.andReg x y) := ⟨wellFormed_all _, by simp [opcodeTable, rowOf], and_wordRRN_fn _ x y _⟩
theorem xorReg (x : Reg) (y : Reg) : Statement (.xorReg x y) := ⟨wellFormed_all _, by simp [opcodeTable, rowOf], and_wordRRN_fn _ x y _⟩
theorem addReg (x : Reg) (y : Reg) : Statement (.addReg x y) := ⟨wellFormed_all _, by simp [opcodeTable, rowOf], and_wordRRN_fn _ x y _⟩
theorem sub (x : Reg) (y : Reg) : Statement (.sub x y) := ⟨wellFormed_all _, by simp [opcodeTable, rowOf], and_wordRRN_fn _ x y _⟩
theorem shr (x : Reg) (y : Reg) : Statement (.shr x y) := ⟨wellFormed_all _, by simp [opcodeTable, rowOf], and_wordRRN_fn _ x y _⟩
theorem subn (x : Reg) (y : Reg) : Statement (.subn x y) := ⟨wellFormed_all _, by simp [opcodeTable, rowOf], and_wordRRN_fn _ x y _⟩
theorem shl (x : Reg) (y : Reg) : Statement (.shl x y) := ⟨wellFormed_all _, by simp [opcodeTable, rowOf], and_wordRRN_fn _ x y _⟩
theorem ldI (nnn : BitVec 12) : Statement (.ldI nnn) := ⟨wellFormed_all _, by simp [opcodeTable, rowOf], and_wordA _ nnn⟩
theorem jpV0 (nnn : BitVec 12) : Statement (.jpV0 nnn) := ⟨wellFormed_all _, by simp [opcodeTable, rowOf], and_wordA _ nnn⟩
theorem rnd (x : Reg) (nn : Byte) : Statement (.rnd x nn) := ⟨wellFormed_all _, by simp [opcodeTable, rowOf], and_wordRI_top _ x nn⟩
theorem drw (x : Reg) (y : Reg) (n : BitVec 4) : Statement (.drw x y n) := ⟨wellFormed_all _, by simp [opcodeTable, rowOf], and_wordRRN_top _ x y n⟩
theorem skp (x : Reg) : Statement (.skp x) := ⟨wellFormed_all _, by simp [opcodeTable, rowOf], and_wordRI_fn _ x _⟩
theorem sknp (x : Reg) : Statement (.sknp x) := ⟨wellFormed_all _, by simp [opcodeTable, rowOf], and_wordRI_fn _ x _⟩
theorem ldVxDt (x : Reg) : Statement (.ldVxDt x) := ⟨wellFormed_all _, by simp [opcodeTable, rowOf], and_wordRI_fn _ x _⟩
theorem ldDtVx (x : Reg) : Statement (.ldDtVx x) := ⟨wellFormed_all _, by simp [opcodeTable, rowOf], and_wordRI_fn _ x _⟩
theorem ldStVx (x : Reg) : Statement (.ldStVx x) := ⟨wellFormed_all _, by simp [opcodeTable, rowOf], and_wordRI_fn _ x _⟩
theorem addI (x : Reg) : Statement (.addI x) := ⟨wellFormed_all _, by simp [opcodeTable, rowOf], and_wordRI_fn _ x _⟩
theorem ldVxK (x : Reg) : Statement (.ldVxK x) := ⟨wellFormed_all _, by simp [opcodeTable, rowOf], and_wordRI_fn _ x _⟩
theorem ldF (x : Reg) : Statement (.ldF x) := ⟨wellFormed_all _, by simp [opcodeTable, rowOf], and_wordRI_fn _ x _⟩
theorem ldB (x : Reg) : Statement (.ldB x) := ⟨wellFormed_all _, by simp [opcodeTable, rowOf], and_wordRI_fn _ x _⟩
theorem stRegs (x : Reg) : Statement (.stRegs x) := ⟨wellFormed_all _, by simp [opcodeTable, rowOf], and_wordRI_fn _ x _⟩
theorem ldRegs (x : Reg) : Statement (.ldRegs x) := ⟨wellFormed_all _, by simp [opcodeTable, rowOf], and_wordRI_fn _ x _⟩

end Sys2Proof.Laws.Encoded
end

