-- ==== Sys2Proof/Laws/Timers.lean ====
section
/-!
SUPPORT. The timers: what a count of ticks leaves (60_exceptions R266), and one round of the source's loop.
-/

namespace Sys2Proof.Machine

/-- A timer after `n` ticks holds `max(t - n, 0)`. -/
@[simp] theorem decay_toNat (t : Byte) (n : Nat) : (decay t n).toNat = t.toNat - n := by
  unfold decay
  split
  · rename_i h; subst h; simp
  · have := t.isLt
    simp; omega

/-- No tick, no change. -/
@[simp] theorem decay_zero (t : Byte) : decay t 0 = t := by
  apply BitVec.eq_of_toNat_eq; simp

/-- One tick and then `n` are `n + 1` ticks. -/
theorem decay_tick (t : Byte) (n : Nat) : decay (if t = 0 then 0 else t - 1) n = decay t (n + 1) := by
  apply BitVec.eq_of_toNat_eq
  simp only [decay_toNat]
  split
  · rename_i h; subst h; simp
  · rename_i h
    have h0 : t.toNat ≠ 0 := fun e => h (BitVec.eq_of_toNat_eq (by simpa using e))
    rw [BitVec.toNat_sub_of_le (by rw [BitVec.le_def]; simp; omega)]
    simp; omega

theorem tickTimers_zero (s : State) : tickTimers 0 s = s := by
  simp [tickTimers]

/-- A loop round and then `n` ticks are `n + 1` ticks. -/
theorem tickTimers_tickOnce (n : Nat) (s : State) : tickTimers n (tickOnce s) = tickTimers (n + 1) s := by
  simp only [tickTimers, tickOnce, decay_tick, Nat.add_assoc, Nat.add_comm 1 n]

/-- A loop round moves the reference time by one interval. -/
theorem lastTick_tickOnce (s : State) : (tickOnce s).lastTick = s.lastTick + Config.tTick := by
  simp only [State.lastTick, tickOnce]; push_cast; ring

theorem lastTick_tickTimers (n : Nat) (s : State) :
    (tickTimers n s).lastTick = s.lastTick + n * Config.tTick := by
  simp only [State.lastTick, tickTimers]; push_cast; ring

end Sys2Proof.Machine
end

