-- ==== Sys2Proof/Tests/Slice0.lean ====
section
/-!
SUPPORT. Tests: the well-formedness check refuses what it should, words written out from the spec's
encodings decode to what they stand for, one Step on a small state with the result the spec's own vectors
give (95_test_vectors, the vector named in each comment), and for every obligation with hypotheses a
concrete case that meets them.
-/

namespace Sys2Proof.Tests

open Sys2Proof Sys2Proof.Machine

/-! ### Helpers -/

/-- One field of the next state, if there is one. -/
def field {α : Type} (f : State → α) (r : Result) : Option α :=
  match r with
  | .next t => some (f t)
  | .fault _ => none
  | .refused _ => none

/-- Does the answer carry a next state? -/
def isNext (r : Result) : Bool :=
  match r with
  | .next _ => true
  | .fault _ => false
  | .refused _ => false

/-- The next state; the reset state where there is none. -/
def after (r : Result) : State :=
  match r with
  | .next t => t
  | .fault _ => State.reset
  | .refused _ => State.reset

theorem eq_next_after {r : Result} (h : isNext r = true) : r = .next (after r) := by
  cases r with
  | next t => rfl
  | fault f => cases h
  | refused q => cases h

/-- The keys of a list are down. -/
def keys (l : List (Fin 16)) : Vector Bool 16 := Vector.ofFn fun k => decide (k ∈ l)

/-- The inputs of the vectors: no tick, no key, random byte 0. -/
def quiet : HostInput := ⟨0, keys [], 0⟩

/-- The reset state with some registers changed. -/
def regs (l : List (Reg × Byte)) : State := l.foldl (fun s p => s.setReg p.1 p.2) State.reset

/-- The inputs of the next Step, and the word where it fetches. -/
def given (inp : HostInput) (w : Nat) (s : State) : State :=
  State.withFetchWord { s with pending := [inp] } 16 w

/-- One Step of a word under quiet inputs. -/
def run (w : Nat) (s : State) : Result := step (given quiet w s)

/-- The pixels that are set, of the rows and columns given. -/
def lit (rows cols : List Nat) (s : State) : List (Nat × Nat) :=
  rows.flatMap fun r => (cols.filter fun c => pixelAt s.pix r c).map fun c => (r, c)

/-- The bytes from an address up. -/
def bytes (a n : Nat) (s : State) : List Byte := (List.range n).map fun i => s.peek (a + i)

/-! ### Well-formedness: an ill-formed term for each check -/

theorem test_wf_register_too_wide : Format.accepts .R [16] = false := by decide
theorem test_wf_byte_too_wide : Format.accepts .RI [0, 256] = false := by decide
theorem test_wf_address_too_wide : Format.accepts .A [4096] = false := by decide
theorem test_wf_nibble_too_wide : Format.accepts .RRN [0, 0, 16] = false := by decide
theorem test_wf_operand_missing : Format.accepts .RR [3] = false := by decide
theorem test_wf_operand_extra : Format.accepts .Z [0] = false := by decide
theorem test_wf_widest_accepted :
    Format.accepts .RRN [15, 15, 15] = true ∧ Format.accepts .RI [15, 255] = true ∧
      Format.accepts .A [4095] = true := by decide

/-! ### Decoding: words written out bit by bit from 30_encoding R84 -/

theorem test_decode_display :
    decodeWord 0b0000000011100000 = .ok .cls ∧
    decodeWord 0b1101000100100101 = .ok (.drw 1 2 5) := by decide

theorem test_decode_jumps_and_calls :
    decodeWord 0b0000000011101110 = .ok .ret ∧
    decodeWord 0b0001101010111100 = .ok (.jp 0xABC) ∧
    decodeWord 0b0010101010111100 = .ok (.call 0xABC) ∧
    decodeWord 0b1011001100000001 = .ok (.jpV0 0x301) := by decide

theorem test_decode_skips :
    decodeWord 0b0011001101000010 = .ok (.seImm 3 0x42) ∧
    decodeWord 0b0100001101000011 = .ok (.sneImm 3 0x43) ∧
    decodeWord 0b0101001101000000 = .ok (.seReg 3 4) ∧
    decodeWord 0b1001001101000000 = .ok (.sneReg 3 4) := by decide

theorem test_decode_loads_and_immediates :
    decodeWord 0b0110101001111011 = .ok (.ldImm 0xA 0x7B) ∧
    decodeWord 0b0111000111111111 = .ok (.addImm 1 0xFF) ∧
    decodeWord 0b1100001100001111 = .ok (.rnd 3 0x0F) := by decide

theorem test_decode_two_registers :
    decodeWord 0b1000000100100000 = .ok (.ldReg 1 2) ∧
    decodeWord 0b1000000100100001 = .ok (.orReg 1 2) ∧
    decodeWord 0b1000000100100010 = .ok (.andReg 1 2) ∧
    decodeWord 0b1000000100100011 = .ok (.xorReg 1 2) ∧
    decodeWord 0b1000000100100100 = .ok (.addReg 1 2) ∧
    decodeWord 0b1000000100100101 = .ok (.sub 1 2) ∧
    decodeWord 0b1000000100100110 = .ok (.shr 1 2) ∧
    decodeWord 0b1000000100100111 = .ok (.subn 1 2) ∧
    decodeWord 0b1000000100101110 = .ok (.shl 1 2) := by decide

theorem test_decode_index_and_memory :
    decodeWord 0b1010001100000000 = .ok (.ldI 0x300) ∧
    decodeWord 0b1111001000011110 = .ok (.addI 2) ∧
    decodeWord 0b1111101000101001 = .ok (.ldF 0xA) ∧
    decodeWord 0b1111101000110011 = .ok (.ldB 0xA) ∧
    decodeWord 0b1111001001010101 = .ok (.stRegs 2) ∧
    decodeWord 0b1111001001100101 = .ok (.ldRegs 2) := by decide

theorem test_decode_keys_and_timers :
    decodeWord 0b1110010010011110 = .ok (.skp 4) ∧
    decodeWord 0b1110010010100001 = .ok (.sknp 4) ∧
    decodeWord 0b1111010100000111 = .ok (.ldVxDt 5) ∧
    decodeWord 0b1111001100001010 = .ok (.ldVxK 3) ∧
    decodeWord 0b1111010100010101 = .ok (.ldDtVx 5) ∧
    decodeWord 0b1111010100011000 = .ok (.ldStVx 5) := by decide

/-- D3 to D7: near misses are no instruction. -/
theorem test_decode_unrecognized :
    decodeWord 0x00E1 = .error (.unrecognized .zero) ∧ decodeWord 0x5121 = .error (.unrecognized .five) ∧
    decodeWord 0x8128 = .error (.unrecognized .eight) ∧ decodeWord 0x9121 = .error (.unrecognized .nine) ∧
    decodeWord 0xE1A0 = .error (.unrecognized .e) ∧ decodeWord 0xF166 = .error (.unrecognized .f) := by
  decide

/-- The bytes of a table word in memory order, and one byte too few (R80). -/
theorem test_decode_bytes :
    decode [0x80, 0x14, 0x99] = .ok (.addReg 0 1, [0x99]) ∧ decode [0x80] = .error .truncated ∧
    decodeTableWord 16 0xD125 = some (.drw 1 2 5) ∧ encodeBytes (.addReg 0 1) = [0x80, 0x14] := by decide

/-! ### Register, arithmetic, logic, shift, random (95_test_vectors 2.3) -/

/-- A1 -/
theorem test_ldImm : field (fun t => (t.reg 0xA, t.pc)) (run 0x6A7B State.reset) = some (0x7B, 0x202) := by
  decide

/-- A3, A5 -/
theorem test_addImm_wraps :
    field (fun t => (t.reg 0, t.reg regF)) (run 0x7001 (regs [(0, 0xFF)])) = some (0x00, 0x00) := by decide
theorem test_addImm_to_flag : field (fun t => t.reg regF) (run 0x7F02 (regs [(regF, 0xFF)])) = some 0x01 := by
  decide

/-- A6 -/
theorem test_ldReg : field (fun t => (t.reg 1, t.reg 2)) (run 0x8120 (regs [(2, 0x7B)])) = some (0x7B, 0x7B) := by
  decide

/-- A7 -/
theorem test_orReg : field (fun t => (t.reg 0, t.reg regF))
    (run 0x8011 (regs [(0, 0xF0), (1, 0x0F), (regF, 0x01)])) = some (0xFF, 0x01) := by decide

/-- A8 -/
theorem test_andReg : field (fun t => t.reg 0) (run 0x8012 (regs [(0, 0xF3), (1, 0x3C)])) = some 0x30 := by decide

/-- A9, A10 -/
theorem test_xorReg : field (fun t => t.reg 0) (run 0x8013 (regs [(0, 0xFF), (1, 0x0F)])) = some 0xF0 := by decide
theorem test_xorReg_self : field (fun t => t.reg 2) (run 0x8223 (regs [(2, 0x5A)])) = some 0x00 := by decide

/-- A11, A16 -/
theorem test_addReg_carry : field (fun t => (t.reg 0, t.reg regF))
    (run 0x8014 (regs [(0, 0xFF), (1, 0x01)])) = some (0x00, 0x01) := by decide
theorem test_addReg_result_replaces_flag :
    field (fun t => t.reg regF) (run 0x8F14 (regs [(regF, 0xC8), (1, 0x64)])) = some 0x2C := by decide

/-- A20, A21 -/
theorem test_sub_borrow : field (fun t => (t.reg 0, t.reg regF))
    (run 0x8015 (regs [(0, 0x05), (1, 0x07)])) = some (0xFE, 0x00) := by decide
theorem test_sub_equal : field (fun t => (t.reg 0, t.reg regF))
    (run 0x8015 (regs [(0, 0x05), (1, 0x05)])) = some (0x00, 0x00) := by decide

/-- A35, A42 -/
theorem test_shr_reads_y : field (fun t => (t.reg 0, t.reg 1, t.reg regF))
    (run 0x8016 (regs [(0, 0xAA), (1, 0x05)])) = some (0x02, 0x05, 0x01) := by decide
theorem test_shr_of_flag : field (fun t => (t.reg 0, t.reg regF))
    (run 0x80F6 (regs [(0, 0x09), (regF, 0x03)])) = some (0x01, 0x01) := by decide

/-- A29, A31 -/
theorem test_subn : field (fun t => (t.reg 0, t.reg regF))
    (run 0x8017 (regs [(0, 0x05), (1, 0x07)])) = some (0x02, 0x01) := by decide
theorem test_subn_equal : field (fun t => (t.reg 0, t.reg regF))
    (run 0x8017 (regs [(0, 0x05), (1, 0x05)])) = some (0x00, 0x00) := by decide

/-- A43, A48 -/
theorem test_shl_reads_y : field (fun t => (t.reg 0, t.reg regF))
    (run 0x801E (regs [(0, 0xAA), (1, 0x81)])) = some (0x02, 0x01) := by decide
theorem test_shl_result_replaces_flag : field (fun t => t.reg regF) (run 0x8F1E (regs [(1, 0xC1)])) = some 0x82 := by
  decide

/-- A50 -/
theorem test_rnd : field (fun t => t.reg 3) (step (given ⟨0, keys [], 0xA7⟩ 0xC30F State.reset)) = some 0x07 := by
  decide

/-! ### Control transfer (2.2) -/

/-- F1 -/
theorem test_jp : field (fun t => t.pc) (run 0x1ABC State.reset) = some 0x0ABC := by decide

/-- F5, F6 -/
theorem test_call_last_entry : field (fun t => (t.stack[15], t.sp, t.pc, t.outcome))
    (run 0x2ABC { State.reset with sp := 15 }) = some (0x0202, 16, 0x0ABC, .ok) := by decide
theorem test_call_overflow : field (fun t => (t.sp, t.pc, t.outcome))
    (run 0x2ABC { State.reset with sp := 16 }) = some (16, 0x0202, .err .stackOverflow) := by decide

/-- F9, F8 -/
theorem test_ret : field (fun t => (t.sp, t.pc, t.stack[15]))
    (run 0x00EE { State.reset with sp := 16, stack := State.reset.stack.set 15 0x0300 }) =
      some (15, 0x0300, 0x0300) := by decide
theorem test_ret_underflow : field (fun t => (t.sp, t.pc, t.outcome)) (run 0x00EE State.reset) =
    some (0, 0x0202, .err .stackUnderflow) := by decide

/-- F10, F11 -/
theorem test_seImm_taken : field (fun t => t.pc) (run 0x3342 (regs [(3, 0x42)])) = some 0x204 := by decide
theorem test_seImm_not_taken : field (fun t => t.pc) (run 0x3343 (regs [(3, 0x42)])) = some 0x202 := by decide

/-- F12, F13 -/
theorem test_sneImm_not_taken : field (fun t => t.pc) (run 0x4342 (regs [(3, 0x42)])) = some 0x202 := by decide
theorem test_sneImm_taken : field (fun t => t.pc) (run 0x4343 (regs [(3, 0x42)])) = some 0x204 := by decide

/-- F14, F15 -/
theorem test_seReg_taken : field (fun t => t.pc) (run 0x5340 (regs [(3, 0x80), (4, 0x80)])) = some 0x204 := by decide
theorem test_seReg_not_taken : field (fun t => t.pc) (run 0x5340 (regs [(3, 1), (4, 2)])) = some 0x202 := by decide

/-- F17, F18 -/
theorem test_sneReg_taken : field (fun t => t.pc) (run 0x9340 (regs [(3, 1), (4, 2)])) = some 0x204 := by decide
theorem test_sneReg_self : field (fun t => t.pc) (run 0x9550 (regs [(5, 9)])) = some 0x202 := by decide

/-- F20 -/
theorem test_jpV0 : field (fun t => t.pc) (run 0xBFFF (regs [(0, 0xFF)])) = some 0x10FE := by decide

/-! ### Index register and memory (2.4) -/

/-- M2 -/
theorem test_ldI : field (fun t => t.index) (run 0xAFFF State.reset) = some 0x0FFF := by decide

/-- M5 -/
theorem test_addI_wraps : field (fun t => (t.index, t.reg regF))
    (run 0xF21E { regs [(2, 0x01)] with index := 0xFFFF }) = some (0x0000, 0x00) := by decide

/-- M10, both settings of the parameter -/
theorem test_ldF : field (fun t => t.index) (run 0xF029 (regs [(0, 0xFF)])) = some 0x054B := by decide
theorem test_ldF_masked : field (fun t => t.index)
    (run 0xF029 { regs [(0, 0xFF)] with
      cfg := { Config.Params.standard with fx29MaskNibble := true } }) = some 0x009B := by decide

/-- M16, M17 -/
theorem test_ldB_top : field (fun t => (bytes 0xFFD 3 t, t.outcome))
    (run 0xF033 { regs [(0, 0x7B)] with index := 0x0FFD }) = some ([1, 2, 3], .ok) := by decide
theorem test_ldB_beyond : field (fun t => (bytes 0xFFE 2 t, t.outcome))
    (run 0xF033 { regs [(0, 0x7B)] with index := 0x0FFE }) =
      some ([0, 0], .err (.addressError 0x0FFE)) := by decide

/-- M18, M21 -/
theorem test_stRegs : field (fun t => (bytes 0x400 4 t, t.index))
    (run 0xF255 { regs [(0, 0x11), (1, 0x22), (2, 0x33)] with index := 0x0400 }) =
      some ([0x11, 0x22, 0x33, 0x00], 0x0400) := by decide
theorem test_stRegs_beyond : field (fun t => (bytes 0xFF1 15 t, t.outcome))
    (run 0xFF55 { regs [(0, 0x11)] with index := 0x0FF1 }) =
      some (List.replicate 15 0, .err (.addressError 0x0FF1)) := by decide

/-- M22, M24 -/
theorem test_ldRegs : field (fun t => (t.reg 0, t.reg 1, t.reg 2, t.index))
    (run 0xF265 { State.reset.pokes 0x300 [2, 5, 4] with index := 0x0300 }) = some (2, 5, 4, 0x0300) := by decide
theorem test_ldRegs_beyond : field (fun t => (t.reg 0, t.reg 1, t.outcome))
    (run 0xF165 { regs [(0, 7), (1, 8)] with index := 0x0FFF }) =
      some (7, 8, .err (.addressError 0x0FFF)) := by decide

/-! ### Display (2.5) -/

/-- G1 -/
theorem test_cls : field (fun t => (pixelAt t.pix 3 4, t.draw))
    (run 0x00E0 { State.reset with pix := togglePixel State.reset.pix 3 4, draw := false }) =
      some (false, true) := by decide

/-- G4, G7: the right edge clips; a set pixel under a sprite bit is a collision. -/
theorem test_drw_clips : field (fun t => (lit [0, 1] [0, 1, 59, 60, 61, 62, 63, 64] t, t.reg regF))
    (run 0xD011 { (regs [(0, 0x3C)]).poke 0x300 0xFF with index := 0x0300 }) =
      some ([(0, 60), (0, 61), (0, 62), (0, 63)], 0) := by decide
theorem test_drw_collides : field (fun t => (lit [0] [0, 1, 2] t, t.reg regF))
    (run 0xD011 { State.reset.poke 0x300 0xC0 with
      index := 0x0300, pix := togglePixel State.reset.pix 0 0 }) = some ([(0, 1)], 1) := by decide

/-! ### Keys and timers (2.6) -/

/-- K1, K6 -/
theorem test_skp : field (fun t => t.pc) (step (given ⟨0, keys [10], 0⟩ 0xE49E (regs [(4, 0x0A)]))) = some 0x204 := by
  decide
theorem test_skp_no_such_key : field (fun t => (t.pc, t.outcome)) (run 0xE49E (regs [(4, 0x10)])) =
    some (0x202, .err (.keyIndexError 0x10)) := by decide

/-- K4, K5 -/
theorem test_sknp : field (fun t => t.pc) (run 0xE4A1 (regs [(4, 0x0A)])) = some 0x204 := by decide
theorem test_sknp_down : field (fun t => t.pc) (step (given ⟨0, keys [10], 0⟩ 0xE4A1 (regs [(4, 0x0A)]))) =
    some 0x202 := by decide

/-- K8, K9 -/
theorem test_ldVxK_waits : field (fun t => (t.pc, t.reg 3)) (run 0xF30A (regs [(3, 0x55)])) = some (0x200, 0x55) := by
  decide
theorem test_ldVxK_lowest : field (fun t => (t.pc, t.reg 3))
    (step (given ⟨0, keys [7, 9], 0⟩ 0xF30A State.reset)) = some (0x202, 0x07) := by decide

/-- K14: the tick comes first. -/
theorem test_ldVxDt : field (fun t => (t.dt, t.reg 5))
    (step (given ⟨2, keys [], 0⟩ 0xF507 { State.reset with dt := 0x2A })) = some (0x28, 0x28) := by decide

/-- K15 -/
theorem test_ldDtVx : field (fun t => t.dt)
    (step (given ⟨9, keys [], 0⟩ 0xF515 { regs [(5, 0x3C)] with dt := 0x05 })) = some 0x3C := by decide

/-- K16 -/
theorem test_ldStVx : field (fun t => t.st) (run 0xF518 (regs [(5, 0x04)])) = some 0x04 := by decide

/-- K18 -/
theorem test_timers_stop_at_zero : field (fun t => (t.dt, t.st))
    (step (given ⟨200, keys [], 0⟩ 0x0000 { State.reset with dt := 3, st := 1 })) = some (0, 0) := by decide

/-- The row of tick counts of 2.6: e = 0, 0.5, 1, 1.0001, 1.5, 2, 2.5, 9.99, 10, 10.01, 11 intervals. -/
theorem test_tickCount :
    [0, 500000, 1000000, 1000100, 1500000, 2000000, 2500000, 9990000, 10000000, 10010000, 11000000].map
      tickCount = [0, 0, 0, 1, 1, 1, 2, 9, 9, 10, 10] := by decide

/-! ### Step, reset, load (2.1, 2.7) -/

/-- D4, D5: an unrecognized word skips nothing. -/
theorem test_unrecognized_is_no_skip :
    field (fun t => (t.pc, t.outcome)) (run 0x5121 (regs [(1, 7), (2, 7)])) = some (0x202, .ok) := by decide

/-- D8, D9 -/
theorem test_fetch_last_word : field (fun t => (t.reg 0, t.pc, t.outcome))
    (run 0x6007 { State.reset with pc := 0xFFE }) = some (0x07, 0x1000, .ok) := by decide
theorem test_fetch_beyond : field (fun t => (t.pc, t.outcome))
    (step { State.reset with pc := 0xFFF, pending := [quiet] }) =
      some (0xFFF, .err (.addressError 0xFFF)) := by decide

/-- K12: the keys are overwritten whole. -/
theorem test_keys_overwritten : field (fun t => t.key) (run 0x0000 { State.reset with key := keys [5] }) =
    some (keys []) := by decide

/-- L1 -/
theorem test_reset_values :
    State.reset.pc = 0x200 ∧ State.reset.sp = 0 ∧ State.reset.draw = true ∧
      bytes 0x04F 6 State.reset = [0x00, 0xF0, 0x90, 0x90, 0x90, 0xF0] ∧
      bytes 0x09E 3 State.reset = [0x80, 0x80, 0x00] := by decide

/-- L5 -/
theorem test_load_places_bytes :
    (hostLoad [0xAA, 0xBB] State.reset).1 = .loadOk ∧
      bytes 0x1FF 4 (hostLoad [0xAA, 0xBB] State.reset).2 = [0x00, 0xAA, 0xBB, 0x00] := by decide

/-- S1, its last Step. -/
theorem test_withFetchWord_is_fetched :
    (State.reset.withFetchWord 16 0x8014).peek 0x200 = 0x80 ∧
      (State.reset.withFetchWord 16 0x8014).peek 0x201 = 0x14 ∧
      fetched (State.reset.withFetchWord 16 0x8014) = some (.addReg 0 1) := by decide

/-! ### Witnesses: for each statement with hypotheses, a case that meets them, clause by clause -/

theorem test_witness_EncodeUndoesDecode : decodeWord 0xD125 = .ok (.drw 1 2 5) := by decide

theorem test_witness_LoadImmediateAndCopy :
    fieldT 0x6A7B = 0x6 ∧ (fieldT 0x8FF0 = 0x8 ∧ fieldN 0x8FF0 = 0x0) := by decide

theorem test_witness_AddImmediateWraps : fieldT 0x7FFF = 0x7 := by decide

theorem test_witness_LogicLeavesTheFlag :
    (fieldT 0x8FF1 = 0x8 ∧ fieldN 0x8FF1 = 0x1) ∧ (fieldT 0x8FF2 = 0x8 ∧ fieldN 0x8FF2 = 0x2) ∧
      (fieldT 0x8FF3 = 0x8 ∧ fieldN 0x8FF3 = 0x3) := by decide

/-- The word, and sums on either side of 255. -/
theorem test_witness_AddRegistersWithCarry :
    (fieldT 0x8FF4 = 0x8 ∧ fieldN 0x8FF4 = 0x4) ∧ (0 : Reg) ≠ regF ∧
      (((regs [(0, 0x80), (1, 0x80)]).reg 0).toNat + ((regs [(0, 0x80), (1, 0x80)]).reg 1).toNat > 255) ∧
      ¬(((regs [(0, 0x80), (1, 0x7F)]).reg 0).toNat + ((regs [(0, 0x80), (1, 0x7F)]).reg 1).toNat > 255) := by
  decide

theorem test_witness_SubtractWithStrictFlag :
    (fieldT 0x8FF5 = 0x8 ∧ fieldN 0x8FF5 = 0x5) ∧ (fieldT 0x8FF7 = 0x8 ∧ fieldN 0x8FF7 = 0x7) ∧
      ((regs [(0, 1)]).reg 0).toNat > ((regs [(0, 1)]).reg 1).toNat ∧
      ¬((regs [(0, 1), (1, 1)]).reg 0).toNat > ((regs [(0, 1), (1, 1)]).reg 1).toNat := by decide

theorem test_witness_ShiftsReadYWriteX :
    (fieldT 0x8FF6 = 0x8 ∧ fieldN 0x8FF6 = 0x6) ∧ (fieldT 0x8FFE = 0x8 ∧ fieldN 0x8FFE = 0xE) ∧
      ((regs [(1, 0x81)]).reg 1).toNat % 2 = 1 ∧ ((regs [(1, 0x81)]).reg 1).toNat / 128 = 1 := by decide

theorem test_witness_FlagRegisterAliasing : (0 : Reg) ≠ regF ∧ (14 : Reg) ≠ regF := by decide

theorem test_witness_RandomByteIsMasked : fieldT 0xC30F = 0xC := by decide

theorem test_witness_JumpsSetThePc : 
    fieldT 0x1FFF = 0x1 ∧ fieldT 0xBFFF = 0xB ∧
      ({ State.reset with pc := 0xFFF } : State).pc.toNat > 0xFFE := by decide

/-- The last free entry and the full stack. -/
theorem test_witness_CallPushesOrOverflows :
    fieldT 0x2ABC = 0x2 ∧ ({ State.reset with sp := 15 } : State).sp.val < 16 ∧
      ({ State.reset with sp := 16 } : State).sp.val = 16 := by decide

/-- The full stack, one entry, the empty stack. -/
theorem test_witness_ReturnPopsOrUnderflows :
    ({ State.reset with sp := 16 } : State).sp.val = (15 : Fin 16).val + 1 ∧
      ({ State.reset with sp := 1 } : State).sp.val = (0 : Fin 16).val + 1 ∧ State.reset.sp.val = 0 ∧
      ({ State.reset with pc := 0xFFF } : State).pc.toNat > 0xFFE := by decide

/-- Program P3 from its call on: the call, one instruction of the callee, the return. -/
def callState : State :=
  { State.reset.pokes 0x204 [0x22, 0x0A, 0xF2, 0x65, 0x12, 0x08, 0xF0, 0x33, 0x00, 0xEE] with
    pc := 0x204, index := 0x300, pending := [quiet, quiet, quiet] }

/-- The states after the call and after the instruction that follows. -/
def callRun : Nat → State
  | 0 => after (step callState)
  | n + 1 => after (step (callRun n))

theorem test_witness_ReturnComesBackAfterTheCall :
    fetched callState = some (.call 0x20A) ∧ callState.sp.val < 16 ∧ step callState = .next (callRun 0) ∧
      (∀ i, i < 1 → step (callRun i) = .next (callRun (i + 1))) ∧
      (∀ i, i < 1 → ∀ a, fetched (callRun i) = some (.call a) → (callRun i).sp.val ≠ callState.sp.val) ∧
      fetched (callRun 1) = some .ret ∧ (callRun 1).sp.val = callState.sp.val + 1 := by
  refine ⟨by decide, by decide, eq_next_after (by decide), fun i hi => ?_, fun i hi a h => ?_, by decide, by decide⟩
  · obtain rfl : i = 0 := by omega
    exact eq_next_after (by decide)
  · obtain rfl : i = 0 := by omega
    have e : fetched (callRun 0) = some (.ldB 0) := by decide
    rw [e] at h
    cases h

theorem test_witness_SkipsCompareRegisters :
    fieldT 0x3342 = 0x3 ∧ fieldT 0x4342 = 0x4 ∧ (fieldT 0x5340 = 0x5 ∧ fieldN 0x5340 = 0) ∧
      (fieldT 0x9340 = 0x9 ∧ fieldN 0x9340 = 0) ∧ (fieldT 0x5121 = 0x5 ∧ fieldN 0x5121 ≠ 0) ∧
      (fieldT 0x912F = 0x9 ∧ fieldN 0x912F ≠ 0) ∧
      ({ State.reset with pc := 0xFFF } : State).pc.toNat > 0xFFE := by decide

/-- Key 15, the last there is, and 16, the first there is not. -/
theorem test_witness_SkipsTestKeys :
    (fieldT 0xE49E = 0xE ∧ fieldNN 0xE49E = 0x9E) ∧ (fieldT 0xE4A1 = 0xE ∧ fieldNN 0xE4A1 = 0xA1) ∧
      ((regs [(4, 0x0F)]).reg 4).toNat = (15 : Fin 16).val ∧ ((regs [(4, 0x10)]).reg 4).toNat > 15 := by decide

/-- No key; the last key alone; the first of several. -/
theorem test_witness_WaitForKeyReplaysOrReads :
    (fieldT 0xF30A = 0xF ∧ fieldNN 0xF30A = 0x0A) ∧ (∀ k, State.reset.key.get k = false) ∧
      ((keys [15]).get 15 = true ∧ ∀ j, j < 15 → (keys [15]).get j = false) ∧
      ((keys [7, 9]).get 7 = true ∧ ∀ j, j < 7 → (keys [7, 9]).get j = false) := by decide

theorem test_witness_TimerInstructionsMoveOneByte :
    (fieldT 0xF507 = 0xF ∧ fieldNN 0xF507 = 0x07) ∧ (fieldT 0xF515 = 0xF ∧ fieldNN 0xF515 = 0x15) ∧
      (fieldT 0xF518 = 0xF ∧ fieldNN 0xF518 = 0x18) := by decide

/-- An elapsed time of two intervals and a little: two ticks; and one of none. -/
theorem test_witness_TickLoopAppliesTheCount :
    State.reset.ticksDue (State.reset.lastTick + 2000001) = 2 ∧
      State.reset.lastTick + 2000001 - State.reset.lastTick > 0 ∧
      State.reset.ticksDue (State.reset.lastTick + 0) ≤ 0 ∧
      State.reset.lastTick + 0 - State.reset.lastTick ≤ 0 := by
  simp only [State.ticksDue, add_sub_cancel_left]
  decide

theorem test_witness_TimersFallByTheTicks :
    fetched (given quiet 0xF515 State.reset) = some (.ldDtVx 5) ∧
      fetched (given quiet 0xF518 State.reset) = some (.ldStVx 5) ∧
      (∀ x, fetched (given quiet 0x6A7B State.reset) ≠ some (.ldDtVx x)) ∧
      (∀ x, fetched (given quiet 0x6A7B State.reset) ≠ some (.ldStVx x)) := by decide

theorem test_witness_IndexLoadAndAdd :
    fieldT 0xAFFF = 0xA ∧ (fieldT 0xF21E = 0xF ∧ fieldNN 0xF21E = 0x1E) := by decide

/-- The default, and the largest font base whose glyph addresses all fit. -/
theorem test_witness_GlyphAddressFromRegister :
    (fieldT 0xF029 = 0xF ∧ fieldNN 0xF029 = 0x29) ∧ State.reset.cfg.fontBase.toNat ≤ 0xFB04 ∧
      ({ Config.Params.standard with fontBase := 0xFB04 } : Config.Params).fontBase.toNat ≤ 0xFB04 := by decide

theorem test_witness_StoreDecimalDigits :
    (fieldT 0xF033 = 0xF ∧ fieldNN 0xF033 = 0x33) ∧
      ({ State.reset with index := 0xFFD } : State).index.toNat + 2 ≤ 0xFFF ∧
      ({ State.reset with index := 0xFFE } : State).index.toNat + 2 > 0xFFF := by decide

theorem test_witness_StoreRegisterRange :
    (fieldT 0xFF55 = 0xF ∧ fieldNN 0xFF55 = 0x55) ∧
      ({ State.reset with index := 0xFF0 } : State).index.toNat + (15 : Reg).val ≤ 0xFFF ∧
      ({ State.reset with index := 0xFF1 } : State).index.toNat + (15 : Reg).val > 0xFFF := by decide

theorem test_witness_LoadRegisterRange :
    (fieldT 0xF165 = 0xF ∧ fieldNN 0xF165 = 0x65) ∧
      ({ State.reset with index := 0xFFF } : State).index.toNat + (0 : Reg).val ≤ 0xFFF ∧
      ({ State.reset with index := 0xFFF } : State).index.toNat + (1 : Reg).val > 0xFFF ∧
      ({ State.reset with index := 0xFF0 } : State).index.toNat + (15 : Reg).val ≤ 0xFFF := by decide

theorem test_witness_ReadsSeeTheLastWrite : (0xFFF : Nat) ≤ 0xFFF ∧ (0x1000 : Nat) > 0xFFF := by decide

theorem test_witness_ClearScreenClearsEveryPixel :
    State.reset.cfg.clsSetsRedraw = true ∧
      ({ Config.Params.standard with clsSetsRedraw := false } : Config.Params).clsSetsRedraw = false := by decide

/-- G5: two rows drawn from the last two bytes of memory. -/
def lastRows : State :=
  { (regs [(1, 0x1E)]).pokes 0xFFE [0x80, 0x80] with
    index := 0xFFE, pix := togglePixel State.reset.pix 30 0 }

/-- The rows fit (G5), with a collision and, on an empty buffer, without; a row does not fit (G6); no row (G8). -/
theorem test_witness_DrawTogglesTheCoveredPixels :
    fieldT 0xD014 = 0xD ∧ lastRows.PixelsOk ∧ SpriteInMemory lastRows 1 4 ∧
      (Covered lastRows 0 1 4 30 0 ∧ pixelAt lastRows.pix 30 0 = true) ∧
      (¬∃ r c, Covered { lastRows with pix := State.reset.pix } 0 1 4 r c ∧ pixelAt State.reset.pix r c = true) ∧
      ¬SpriteInMemory { lastRows with index := 0xFFF } 1 4 ∧
      SpriteInMemory { lastRows with index := 0xFFFF } 1 0 := by
  refine ⟨by decide, ?_, ?_, ?_, ?_, ?_, ?_⟩
  · simp only [State.PixelsOk]; decide
  · simp only [SpriteInMemory]; decide
  · simp only [Covered]; decide
  · rintro ⟨r, c, -, h⟩
    exact absurd ((pixelAt_blank 64 32 r c).symm.trans h) (by decide)
  · simp only [SpriteInMemory]; decide
  · simp only [SpriteInMemory]; decide

/-- Drawing at a place, and again in the very state the first drawing leaves. -/
theorem test_witness_DrawingTwiceRestoresTheBuffer :
    let u := after (exec (.drw 0 1 4) lastRows)
    lastRows.PixelsOk ∧ SpriteInMemory lastRows 1 4 ∧ exec (.drw 0 1 4) lastRows = .next u ∧
      u.cfg = lastRows.cfg ∧ u.index = lastRows.index ∧
      (u.reg 0).toNat % lastRows.cfg.displayW = (lastRows.reg 0).toNat % lastRows.cfg.displayW ∧
      (u.reg 1).toNat % lastRows.cfg.displayH = (lastRows.reg 1).toNat % lastRows.cfg.displayH ∧
      ∀ i, i < rowsDrawn lastRows 1 4 →
        u.peek (lastRows.index.toNat + i) = lastRows.peek (lastRows.index.toNat + i) := by
  simp only [State.PixelsOk, SpriteInMemory]
  refine ⟨by decide, by decide, eq_next_after (by decide), by decide, by decide, by decide, by decide, by decide⟩

/-- A state that reports, of each kind of error the instructions have. -/
theorem test_witness_ErrorsArePrecise :
    State.reset.outcome = .ok ∧ (after (exec .ret State.reset)).outcome = .err .stackUnderflow := by decide

theorem test_witness_ErrorsHaveExactlyTheseCauses :
    State.reset.outcome = .ok ∧ Raises .ret State.reset .stackUnderflow ∧
      fetched (given quiet 0x00EE State.reset) = some .ret ∧
      ({ State.reset with pc := 0xFFF } : State).pc.toNat > 0xFFE := by
  simp only [Raises]
  decide

/-- The last word of memory. -/
theorem test_witness_StepRunsTheDecodedInstruction :
    let s := given quiet 0x6007 { State.reset with pc := 0xFFE }
    s.pc.toNat ≤ 0xFFE ∧ decode [s.peek s.pc.toNat, s.peek (s.pc.toNat + 1)] = .ok (.ldImm 0 7, []) ∧
      WellFormed (.ldImm 0 7) = true := by decide

theorem test_witness_UnrecognizedWordIsANoOp :
    let s := given quiet 0x0123 State.reset
    s.pc.toNat ≤ 0xFFE ∧
      ∀ i rest, decode [s.peek s.pc.toNat, s.peek (s.pc.toNat + 1)] ≠ .ok (i, rest) := by
  refine ⟨by decide, fun i rest h => ?_⟩
  have e : decode [(given quiet 0x0123 State.reset).peek 0x200,
      (given quiet 0x0123 State.reset).peek 0x201] = .error (.unrecognized .zero) := by decide
  exact absurd (e.symm.trans h) (by simp)

/-- The last address a word can be fetched from, and the one after it. -/
theorem test_witness_FetchReadsTheWordOrReports :
    ({ State.reset with pc := 0xFFE } : State).pc.toNat ≤ 0xFFE ∧
      ({ State.reset with pc := 0xFFF } : State).pc.toNat > 0xFFE := by decide

theorem test_witness_StepTakesTheHostsInputs :
    ({ State.reset with pending := [quiet] } : State).pending = quiet :: [] ∧ State.reset.pending = [] := by decide

/-- 00E0 is one of the instructions each clause speaks of, but for the pixels; 1NNN for those. -/
theorem test_witness_EachElementHasItsWriters :
    (rowOf .cls).mnemonic ∉ ["LD_B", "ST_REGS"] ∧ (rowOf .cls).mnemonic ≠ "CALL" ∧
      (rowOf .cls).mnemonic ∉ ["RET", "CALL"] ∧ (rowOf .cls).mnemonic ∉ ["LD_I", "ADD_I", "LD_F"] ∧
      (rowOf .cls).mnemonic ≠ "LD_DT_VX" ∧ (rowOf .cls).mnemonic ≠ "LD_ST_VX" ∧
      (rowOf (.jp 0)).mnemonic ∉ ["CLS", "DRW"] ∧ ¬mayWriteReg .cls 0 := by
  refine ⟨by decide, by decide, by decide, by decide, by decide, by decide, by decide, fun h => h⟩

/-- An instruction and an unrecognized word at 0xFFE, and a pc beyond. -/
theorem test_witness_PcAfterEachStep :
    fetched (given quiet 0x6007 { State.reset with pc := 0xFFE }) = some (.ldImm 0 7) ∧
      fetched ({ State.reset with pc := 0xFFE } : State) = none ∧
      ({ State.reset with pc := 0xFFE } : State).pc.toNat ≤ 0xFFE ∧
      ({ State.reset with pc := 0xFFF } : State).pc.toNat > 0xFFE := by decide

/-- A state with its first cell listed, and the Step from it. -/
theorem test_witness_MemoryStaysCanonical :
    (given quiet 0x6007 State.reset).MemOk ∧
      step (given quiet 0x6007 State.reset) = .next (after (run 0x6007 State.reset)) := by
  refine ⟨?_, eq_next_after (by decide)⟩
  simp only [State.MemOk]
  decide

theorem test_witness_ResetAndLoadMemoryIsCanonical : (given quiet 0x6007 State.reset).MemOk := by
  simp only [State.MemOk]
  decide

theorem test_witness_PixelGridKeepsItsSize :
    (given quiet 0x00E0 State.reset).PixelsOk ∧
      step (given quiet 0x00E0 State.reset) = .next (after (run 0x00E0 State.reset)) := by
  refine ⟨?_, eq_next_after (by decide)⟩
  simp only [State.PixelsOk]
  decide

/-- The largest pc and the largest return address. -/
theorem test_witness_AddressesStayInBounds :
    let s : State := { State.reset with pc := 0x10FE, stack := Vector.replicate 16 0x1000, pending := [quiet] }
    s.AddressesOk ∧ step s = .next (after (step s)) := by
  refine ⟨?_, eq_next_after (by decide)⟩
  simp only [State.AddressesOk]
  decide

/-- A Step that reports an error in a state with one recorded, and one that does not. -/
theorem test_witness_ErrorsStayRecorded :
    step (given quiet 0x00EE { State.reset with errSeen := true }) =
        .next (after (run 0x00EE { State.reset with errSeen := true })) ∧
      (given quiet 0x00EE { State.reset with errSeen := true }).errSeen = true ∧
      (after (run 0x00EE State.reset)).outcome = .err .stackUnderflow ∧
      (after (run 0x6007 State.reset)).outcome = .ok := by
  refine ⟨eq_next_after (by decide), by decide, by decide, by decide⟩

theorem test_witness_DrawAndParametersPersist :
    State.reset.draw = true ∧ step (given quiet 0x6007 State.reset) = .next (after (run 0x6007 State.reset)) := by
  refine ⟨by decide, eq_next_after (by decide)⟩

/-- The top entry of the full stack, popped. -/
theorem test_witness_StackEntriesInUseAreKept :
    (15 : Fin 16).val < (given quiet 0x00EE { State.reset with sp := 16 }).sp.val ∧
      step (given quiet 0x00EE { State.reset with sp := 16 }) =
        .next (after (run 0x00EE { State.reset with sp := 16 })) := by
  refine ⟨by decide, eq_next_after (by decide)⟩

theorem test_witness_RandomByteMattersOnlyToRnd :
    ∀ x nn, fetched (given quiet 0x6007 State.reset) ≠ some (.rnd x nn) := by
  intro x nn h
  have e : fetched (given quiet 0x6007 State.reset) = some (.ldImm 0 7) := by decide
  rw [e] at h
  cases h

/-- L3, L4: the longest program and one byte more; and no `Load` after a `Load`. -/
theorem test_witness_LoadPlacesTheProgram :
    State.reset.loadOpen = true ∧ (List.replicate 3584 (0xAA : Byte)).length ≤ 3584 ∧
      (List.replicate 3585 (0xAA : Byte)).length > 3584 ∧
      (hostLoad [0xAA, 0xBB] State.reset).2.loadOpen = false ∧
      step (given quiet 0x6007 State.reset) = .next (after (run 0x6007 State.reset)) := by
  refine ⟨by decide, ?_, ?_, by decide, eq_next_after (by decide)⟩ <;> rw [List.length_replicate] <;> decide

/-- The last cell of the grid. -/
theorem test_witness_HostReadsAndClears :
    31 < State.reset.cfg.displayH ∧ 63 < State.reset.cfg.displayW := by decide

/-- The cells next to the last one, which are none. -/
theorem test_witness_OnlyReadingNoPixelFaults :
    ¬(32 < State.reset.cfg.displayH ∧ 63 < State.reset.cfg.displayW) ∧
      ¬(31 < State.reset.cfg.displayH ∧ 64 < State.reset.cfg.displayW) ∧
      ∃ f, transact (.readPixel 32 63) State.reset = .fault f := by
  refine ⟨by decide, by decide, .noSuchPixel 32 63, rfl⟩

/-- Ten and a half intervals after the reference time: ten ticks due; with an FX15, an FX18 and neither. -/
theorem test_witness_StepAtTheClockTicksAsTheLoop :
    (given quiet 0xF515 State.reset).ticksDue ((given quiet 0xF515 State.reset).lastTick + 10500000) ≤ 10 ∧
      fetched (given quiet 0xF515 State.reset) = some (.ldDtVx 5) ∧
      fetched (given quiet 0xF518 State.reset) = some (.ldStVx 5) ∧
      (∀ x, fetched (given quiet 0x6A7B State.reset) ≠ some (.ldDtVx x)) ∧
      (∀ x, fetched (given quiet 0x6A7B State.reset) ≠ some (.ldStVx x)) := by
  refine ⟨?_, by decide, by decide, by decide, by decide⟩
  simp only [State.ticksDue, add_sub_cancel_left]
  decide

end Sys2Proof.Tests
end

section
/-!
PROOFS. What an instruction and a Step can do, said once: the ways an instruction can leave the state, and the
three ways a Step can go (40_step_cycle R100 to R106).
-/

namespace Sys2Proof.Machine

/-! ### What an instruction can do

`Effect` inverts `exec`: the ways an instruction can leave the state, each with its guard and the pc it leaves.
A claim about every instruction is a case analysis over these ten ways, not over the 34 arms. -/

/-- The state `t` is what the instruction `i` may leave from the state `s`. -/
inductive Effect (i : Instr) (s : State) : State → Prop
  /-- it reports an error that it raises, and nothing else (R106) -/
  | report (e : StepError) (he : Raises i s e) (hpc : pcAfter i s = s.pc) : Effect i s (s.report e)
  /-- it sets the pc alone -/
  | setPc (w : Word) (hpc : pcAfter i s = w) : Effect i s (s.setPc w)
  /-- it pops the stack into the pc (R120) -/
  | pop (hi : (rowOf i).mnemonic = "RET") (sp : Fin 17) (hsp : s.sp.val = sp.val + 1) (w : Word)
      (hw : w = s.stack[sp.val]'(by have := s.sp.isLt; simp; omega)) (hpc : pcAfter i s = w) :
      Effect i s { s with sp := sp, pc := w }
  /-- it pushes the pc and jumps (R122) -/
  | push (hi : (rowOf i).mnemonic = "CALL") (hsp : s.sp.val < 16) (w : Word) (hpc : pcAfter i s = w) :
      Effect i s { s with stack := s.stack.set s.sp.val s.pc hsp, sp := ⟨s.sp.val + 1, by omega⟩, pc := w }
  /-- it writes registers that R22 lists for it -/
  | regs (x : Vector Byte 16) (hx : ∀ r, ¬mayWriteReg i r → x.get r = s.reg r) (hpc : pcAfter i s = s.pc) :
      Effect i s { s with x := x }
  /-- it writes the index register (R26) -/
  | setIndex (hi : (rowOf i).mnemonic ∈ ["LD_I", "ADD_I", "LD_F"]) (v : Word) (hpc : pcAfter i s = s.pc) :
      Effect i s (s.setIndex v)
  /-- it writes the delay timer (R214) -/
  | setDt (hi : (rowOf i).mnemonic = "LD_DT_VX") (v : Byte) (hpc : pcAfter i s = s.pc) : Effect i s (s.setDt v)
  /-- it writes the sound timer (R215) -/
  | setSt (hi : (rowOf i).mnemonic = "LD_ST_VX") (v : Byte) (hpc : pcAfter i s = s.pc) : Effect i s (s.setSt v)
  /-- it stores bytes into memory (R59) -/
  | store (hi : (rowOf i).mnemonic ∈ ["LD_B", "ST_REGS"]) (m : Memory)
      (hm : s.MemOk → ({ s with mem := m } : State).MemOk) (hpc : pcAfter i s = s.pc) :
      Effect i s { s with mem := m }
  /-- it writes the display, and registers that R22 lists for it (R190, R191) -/
  | display (hi : (rowOf i).mnemonic ∈ ["CLS", "DRW"]) (p : Pixels) (d : Bool) (x : Vector Byte 16)
      (hp : s.PixelsOk → ({ s with pix := p } : State).PixelsOk) (hd : s.draw = true → d = true)
      (hx : ∀ r, ¬mayWriteReg i r → x.get r = s.reg r) (hpc : pcAfter i s = s.pc) :
      Effect i s { s with pix := p, draw := d, x := x }

section Derived
variable {i : Instr} {s : State}

theorem Effect.setReg (r : Reg) (v : Byte) (hr : mayWriteReg i r) (hpc : pcAfter i s = s.pc) :
    Effect i s (s.setReg r v) :=
  .regs _ (fun _ hq => s.reg_setReg_other v fun e => hq (by rwa [e])) hpc

theorem Effect.setFlagThenReg (b : Bool) (r : Reg) (v : Byte) (hf : mayWriteReg i regF) (hr : mayWriteReg i r)
    (hpc : pcAfter i s = s.pc) : Effect i s (s.setFlagThenReg b r v) := by
  refine .regs _ (fun q hq => ?_) hpc
  have hqr : q ≠ r := fun e => hq (by rwa [e])
  have hqf : q ≠ regF := fun e => hq (by rwa [e])
  exact ((s.setFlag b).reg_setReg_other v hqr).trans (s.reg_setReg_other _ hqf)

theorem Effect.skipIf (b : Bool) (hpc : pcAfter i s = if b then s.pc + 2 else s.pc) :
    Effect i s (s.skipIf b) := by
  rw [State.skipIf_eq]
  exact .setPc _ hpc

theorem Effect.pokes (base : Nat) (vs : List Byte) (hi : (rowOf i).mnemonic ∈ ["LD_B", "ST_REGS"])
    (hpc : pcAfter i s = s.pc) : Effect i s (s.pokes base vs) := by
  rw [State.pokes_eq]
  refine .store hi _ (fun h => ?_) hpc
  rw [← State.pokes_eq]
  exact State.memOk_pokes base vs h

/-- An instruction that stores bytes from `I` up does so where they fit, and else raises the address error. -/
theorem settle_writeBytes_effect (vs : List Byte)
    (hr : 0xFFF < s.base + vs.length - 1 → Raises i s (.addressError s.base))
    (hi : (rowOf i).mnemonic ∈ ["LD_B", "ST_REGS"]) (hpc : pcAfter i s = s.pc) :
    ∃ t, settle s (writeBytes s.base vs s) = .next t ∧ Effect i s t := by
  by_cases h : vs.length = 0 ∨ s.base + vs.length - 1 ≤ 0xFFF
  · exact ⟨_, by rw [writeBytes_ok s h, settle_ok], .pokes _ _ hi hpc⟩
  · refine ⟨_, by rw [writeBytes_error s h, settle_error], .report _ (hr ?_) hpc⟩
    exact Nat.lt_of_not_le fun hle => h (.inr hle)

/-- An instruction that skips on a key does so where the number names one, and else raises the key error. -/
theorem settle_keyNumber_effect (x : Reg) (f : Fin 16 → Bool)
    (hr : 15 < (s.reg x).toNat → Raises i s (.keyIndexError (s.reg x)))
    (hpc : pcAfter i s = if h : (s.reg x).toNat < 16 then (if f ⟨_, h⟩ then s.pc + 2 else s.pc) else s.pc) :
    ∃ t, settle s ((s.keyNumber x).map fun k => s.skipIf (f k)) = .next t ∧ Effect i s t := by
  by_cases h : (s.reg x).toNat < 16
  · exact ⟨_, by rw [State.keyNumber_ok h]; rfl, .skipIf _ (by rw [hpc, dif_pos h])⟩
  · exact ⟨_, by rw [State.keyNumber_error h]; rfl, .report _ (hr (by omega)) (by rw [hpc, dif_neg h])⟩

end Derived

theorem addr16_eq_ofNat (nnn : BitVec 12) : addr16 nnn = BitVec.ofNat 16 nnn.toNat :=
  BitVec.eq_of_toNat_eq (by simp [addr16])

theorem execRet_effect (s : State) : ∃ t, execRet s = .next t ∧ Effect .ret s t := by
  by_cases h : s.sp.val = 0
  · exact ⟨_, by rw [execRet, State.popPc_empty h, settle_error], .report _ ⟨h, rfl⟩ (dif_pos h)⟩
  · have hsp : s.sp.val = s.sp.val - 1 + 1 := by omega
    exact ⟨_, by rw [execRet, State.popPc_ok h, settle_ok], .pop rfl ⟨_, _⟩ hsp _ rfl (dif_neg h)⟩

theorem execCall_effect (nnn : BitVec 12) (s : State) :
    ∃ t, execCall nnn s = .next t ∧ Effect (.call nnn) s t := by
  by_cases h : s.sp.val = 16
  · exact ⟨_, by rw [execCall, State.push_full _ h]; rfl, .report _ ⟨h, rfl⟩ (if_pos h)⟩
  · have hsp : s.sp.val < 16 := by omega
    refine ⟨_, by rw [execCall, State.push_ok _ hsp]; rfl, .push rfl hsp _ ?_⟩
    rw [addr16_eq_ofNat]
    exact if_neg h

theorem execJpV0_effect (nnn : BitVec 12) (s : State) :
    ∃ t, execJpV0 nnn s = .next t ∧ Effect (.jpV0 nnn) s t := by
  refine ⟨_, rfl, .setPc _ ?_⟩
  apply BitVec.eq_of_toNat_eq
  simp [pcAfter, State.reg16, addr16]

theorem execCls_effect (s : State) : ∃ t, execCls s = .next t ∧ Effect .cls s t :=
  ⟨_, rfl, .display (by simp [rowOf]) _ _ s.x (fun _ => Pixels.sized_blank _ _)
    (fun h => by rw [h, Bool.true_or]) (fun _ _ => rfl) rfl⟩

theorem execDrw_effect (x y : Reg) (n : BitVec 4) (s : State) :
    ∃ t, execDrw x y n s = .next t ∧ Effect (.drw x y n) s t := by
  by_cases h : SpriteInMemory s y n
  · refine ⟨_, by simp only [execDrw, readSprite_ok h]; rfl,
      .display (by simp [rowOf]) _ _ _ ?_ (fun _ => rfl) ?_ rfl⟩
    · exact fun hp => sized_drawBytes _ _ _ _ hp
    · exact fun r hr => s.reg_setReg_other _ hr
  · exact ⟨_, by simp only [execDrw, readSprite_error h]; rfl, .report _ ⟨h, rfl⟩ rfl⟩

theorem execLdRegs_effect (x : Reg) (s : State) :
    ∃ t, execLdRegs x s = .next t ∧ Effect (.ldRegs x) s t := by
  by_cases h : x.val + 1 = 0 ∨ s.base + (x.val + 1) - 1 ≤ 0xFFF
  · refine ⟨_, by rw [execLdRegs, readBytes_ok s h]; rfl, .regs _ (fun r hr => ?_) rfl⟩
    have hlt : x.val < r.val := Nat.lt_of_not_le hr
    exact loadRegs_outside _ _ _ (.inr (by simp; omega))
  · refine ⟨_, by rw [execLdRegs, readBytes_error s h]; rfl, .report _ ⟨?_, rfl⟩ rfl⟩
    exact Nat.lt_of_not_le fun hle => h (.inr hle)

theorem execStRegs_effect (x : Reg) (s : State) :
    ∃ t, execStRegs x s = .next t ∧ Effect (.stRegs x) s t := by
  refine settle_writeBytes_effect _ (fun h => ⟨?_, rfl⟩) (by simp [rowOf]) rfl
  have hlen : (s.regsUpTo x).length = x.val + 1 := by simp [State.regsUpTo]
  rwa [hlen] at h

theorem execLdVxK_effect (x : Reg) (s : State) : ∃ t, execLdVxK x s = .next t ∧ Effect (.ldVxK x) s t := by
  refine ⟨_, rfl, ?_⟩
  cases h : s.lowestKey with
  | none => exact .setPc _ (if_pos (s.lowestKey_eq_none.mp h))
  | some k =>
    refine .setReg x _ rfl (if_neg fun hk => ?_)
    rw [s.lowestKey_eq_none.mpr hk] at h
    cases h

/-- Every instruction answers a next state, and what it leaves is one of the effects. -/
theorem exec_effect (i : Instr) (s : State) : ∃ t, exec i s = .next t ∧ Effect i s t := by
  cases i with
  | cls => exact execCls_effect s
  | ret => exact execRet_effect s
  | call nnn => exact execCall_effect nnn s
  | jpV0 nnn => exact execJpV0_effect nnn s
  | drw x y n => exact execDrw_effect x y n s
  | ldVxK x => exact execLdVxK_effect x s
  | stRegs x => exact execStRegs_effect x s
  | ldRegs x => exact execLdRegs_effect x s
  | jp nnn => exact ⟨_, rfl, .setPc _ (addr16_eq_ofNat nnn).symm⟩
  | seImm | sneImm | seReg | sneReg => exact ⟨_, rfl, .skipIf _ (by simp [pcAfter])⟩
  | skp x => exact settle_keyNumber_effect x s.keyDown (fun h => ⟨h, rfl⟩) rfl
  | sknp x =>
    refine settle_keyNumber_effect x (fun k => !s.keyDown k) (fun h => ⟨h, rfl⟩) ?_
    simp [pcAfter, State.keyDown, Vector.get_eq_getElem]
  | ldB x => exact settle_writeBytes_effect _ (fun h => ⟨h, rfl⟩) (by simp [rowOf]) rfl
  | ldI | addI | ldF => exact ⟨_, rfl, .setIndex (by simp [rowOf]) _ rfl⟩
  | ldDtVx => exact ⟨_, rfl, .setDt rfl _ rfl⟩
  | ldStVx => exact ⟨_, rfl, .setSt rfl _ rfl⟩
  | ldImm | addImm | ldReg | orReg | andReg | xorReg | rnd | ldVxDt => exact ⟨_, rfl, .setReg _ _ rfl rfl⟩
  | addReg | sub | shr | subn | shl => exact ⟨_, rfl, .setFlagThenReg _ _ _ (.inr rfl) (.inl rfl) rfl⟩

/-! ### What each effect leaves unchanged -/

section EffectFrames
variable {i : Instr} {s t : State}

theorem Effect.pc (h : Effect i s t) : t.pc = pcAfter i s := by
  cases h with
  | setPc _ hpc | pop _ _ _ _ _ hpc | push _ _ _ hpc | report _ _ hpc | regs _ _ hpc | setIndex _ _ hpc
  | setDt _ _ hpc | setSt _ _ hpc | store _ _ _ hpc | display _ _ _ _ _ _ _ hpc => exact hpc.symm

theorem Effect.sameMemory (h : Effect i s t) (hi : (rowOf i).mnemonic ∉ ["LD_B", "ST_REGS"]) :
    SameMemory s t := by
  cases h with
  | store h => exact absurd h hi
  | _ => exact fun _ => rfl

theorem Effect.stack (h : Effect i s t) (hi : (rowOf i).mnemonic ≠ "CALL") : t.stack = s.stack := by
  cases h with
  | push h => exact absurd h hi
  | _ => rfl

theorem Effect.sp (h : Effect i s t) (hi : (rowOf i).mnemonic ∉ ["RET", "CALL"]) : t.sp = s.sp := by
  cases h with
  | pop h | push h => simp [h] at hi
  | _ => rfl

theorem Effect.index (h : Effect i s t) (hi : (rowOf i).mnemonic ∉ ["LD_I", "ADD_I", "LD_F"]) :
    t.index = s.index := by
  cases h with
  | setIndex h => exact absurd h hi
  | _ => rfl

theorem Effect.dt (h : Effect i s t) (hi : (rowOf i).mnemonic ≠ "LD_DT_VX") : t.dt = s.dt := by
  cases h with
  | setDt h => exact absurd h hi
  | _ => rfl

theorem Effect.st (h : Effect i s t) (hi : (rowOf i).mnemonic ≠ "LD_ST_VX") : t.st = s.st := by
  cases h with
  | setSt h => exact absurd h hi
  | _ => rfl

theorem Effect.pix_draw (h : Effect i s t) (hi : (rowOf i).mnemonic ∉ ["CLS", "DRW"]) :
    t.pix = s.pix ∧ t.draw = s.draw := by
  cases h with
  | display h => exact absurd h hi
  | _ => exact ⟨rfl, rfl⟩

theorem Effect.reg (h : Effect i s t) {r : Reg} (hr : ¬mayWriteReg i r) : t.reg r = s.reg r := by
  cases h with
  | regs _ hx | display _ _ _ _ _ _ hx => exact hx r hr
  | _ => rfl

theorem Effect.cfg (h : Effect i s t) : t.cfg = s.cfg := by cases h <;> rfl

/-- No instruction touches the key latch, the reference time, the parameters or the inputs. -/
theorem Effect.inputs (h : Effect i s t) :
    t.key = s.key ∧ t.tLast = s.tLast ∧ t.cfg = s.cfg ∧ t.rnd = s.rnd ∧ t.loadOpen = s.loadOpen ∧
      t.pending = s.pending ∧ t.stepNo = s.stepNo := by
  cases h <;> exact ⟨rfl, rfl, rfl, rfl, rfl, rfl, rfl⟩

theorem Effect.pixelsOk (h : Effect i s t) (hs : s.PixelsOk) : t.PixelsOk := by
  cases h with
  | display _ _ _ _ hp => exact hp hs
  | _ => exact hs

theorem Effect.draw (h : Effect i s t) (hs : s.draw = true) : t.draw = true := by
  cases h with
  | display _ _ _ _ _ hd => exact hd hs
  | _ => exact hs

/-- Every stack entry afterwards was one before, or is the pc pushed. -/
theorem Effect.stack_get (h : Effect i s t) (k : Fin 16) :
    t.stack.get k = s.stack.get k ∨ t.stack.get k = s.pc := by
  cases h with
  | push _ hsp =>
    simp only [Vector.get_eq_getElem, Vector.getElem_set]
    split
    · exact .inr rfl
    · exact .inl rfl
  | _ => exact .inl rfl

end EffectFrames

/-! ### What a Step can do -/

/-- Where the fetch succeeds, a Step is its word executed in `stepEntry`. -/
theorem step_eq_executeWord {s : State} (h : s.pc.toNat ≤ 0xFFE) :
    step s = executeWord (wordOfBytes (s.peek s.pc.toNat) (s.peek (s.pc.toNat + 1))) (stepEntry s) := by
  have hf : fetch (s.takeInput.afterInputs s.input) =
      .ok (wordOfBytes (s.peek s.pc.toNat) (s.peek (s.pc.toNat + 1))) := fetch_ok _ h
  simp only [step, nextStep, cycle, hf]
  rfl

/-- A Step whose fetch leaves memory reports it, its pc unmoved (R103). -/
theorem step_of_fetch_error {s : State} (h : 0xFFE < s.pc.toNat) :
    step s = .next (((stepEntry s).setPc s.pc).report (.addressError s.pc.toNat)) := by
  have hf : fetch (s.takeInput.afterInputs s.input) = .error (.addressError s.pc.toNat) := fetch_error _ h
  simp only [step, nextStep, cycle, hf]
  rfl

/-- Where the fetch succeeds, the word is an instruction and the Step is that instruction, or it is none and the
Step is a no-op (R104, R105). -/
theorem step_of_fetch_ok {s : State} (h : s.pc.toNat ≤ 0xFFE) :
    (∃ i, fetched s = some i ∧ step s = exec i (stepEntry s)) ∨
      (fetched s = none ∧ step s = .next (stepEntry s)) := by
  rw [step_eq_executeWord h, fetched, if_pos h, executeWord, decode]
  cases decodeWord (wordOfBytes (s.peek s.pc.toNat) (s.peek (s.pc.toNat + 1))) with
  | ok i => exact .inl ⟨i, rfl, rfl⟩
  | error e => exact .inr ⟨rfl, rfl⟩

theorem le_of_fetched {s : State} {i : Instr} (hi : fetched s = some i) : s.pc.toNat ≤ 0xFFE := by
  by_contra h
  rw [fetched, if_neg h] at hi
  cases hi

theorem step_of_fetched {s : State} {i : Instr} (hi : fetched s = some i) : step s = exec i (stepEntry s) := by
  obtain ⟨j, hj, h⟩ | ⟨hn, -⟩ := step_of_fetch_ok (le_of_fetched hi)
  · cases hi.symm.trans hj
    exact h
  · cases hi.symm.trans hn

theorem step_of_not_fetched {s : State} (h : s.pc.toNat ≤ 0xFFE) (hn : fetched s = none) :
    step s = .next (stepEntry s) := by
  obtain ⟨i, hi, -⟩ | ⟨-, h⟩ := step_of_fetch_ok h
  · cases hn.symm.trans hi
  · exact h

/-- What a Step leaves, in each of its three ways. -/
inductive StepEffect (s : State) : State → Prop
  /-- the word is an instruction, and has that instruction's effect -/
  | instr {t : State} (i : Instr) (hi : fetched s = some i) (ht : Effect i (stepEntry s) t) : StepEffect s t
  /-- the word is no instruction (R105) -/
  | noOp (hpc : s.pc.toNat ≤ 0xFFE) (hi : fetched s = none) : StepEffect s (stepEntry s)
  /-- the word lies beyond memory (R103) -/
  | fetchError (hpc : 0xFFE < s.pc.toNat) :
      StepEffect s (((stepEntry s).setPc s.pc).report (.addressError s.pc.toNat))

/-- Every Step answers a next state, and what it leaves is one of the effects. -/
theorem step_effect (s : State) : ∃ t, step s = .next t ∧ StepEffect s t := by
  by_cases hpc : s.pc.toNat ≤ 0xFFE
  · cases hi : fetched s with
    | none => exact ⟨_, step_of_not_fetched hpc hi, .noOp hpc hi⟩
    | some i =>
      obtain ⟨t, ht, heff⟩ := exec_effect i (stepEntry s)
      exact ⟨t, (step_of_fetched hi).trans ht, .instr i hi heff⟩
  · have hpc := Nat.lt_of_not_le hpc
    exact ⟨_, step_of_fetch_error hpc, .fetchError hpc⟩

theorem stepEffect_of_step {s t : State} (h : step s = .next t) : StepEffect s t := by
  obtain ⟨u, hu, heff⟩ := step_effect s
  cases hu.symm.trans h
  exact heff

end Sys2Proof.Machine
end

section
/-!
PROOFS. The statements about the elements of the state (10_state): each is read off the effects of an instruction
and of a Step.
-/

namespace Sys2Proof.Machine

/-! ### The bounds on addresses -/

/-- From an entry whose pc and stack entries are within the reach of a fetched instruction, the largest pc an
instruction leaves is BNNN's 0xFF + 0xFFF (R38). -/
theorem pcAfter_le {s : State} (hstack : ∀ k : Fin 16, (s.stack.get k).toNat ≤ 0x1000)
    (hlo : 2 ≤ s.pc.toNat) (hhi : s.pc.toNat ≤ 0x1000) (i : Instr) : (pcAfter i s).toNat ≤ 0x10FE := by
  have hsame : s.pc.toNat ≤ 0x10FE := by omega
  have hskip : (s.pc + 2).toNat ≤ 0x10FE := by bv_omega
  have hrewind : (s.pc - 2).toNat ≤ 0x10FE := by bv_omega
  have hjump (nnn : BitVec 12) : (BitVec.ofNat 16 nnn.toNat).toNat ≤ 0x10FE := by
    rw [BitVec.toNat_ofNat]
    omega
  cases i with
  | ret =>
    simp only [pcAfter]
    split_ifs with h
    · exact hsame
    · exact (hstack ⟨s.sp.val - 1, by omega⟩).trans (by decide)
  | jpV0 nnn =>
    have := (s.reg 0).isLt
    simp only [pcAfter, BitVec.toNat_ofNat]
    omega
  | jp nnn => exact hjump nnn
  | call nnn =>
    simp only [pcAfter]
    split_ifs
    · exact hsame
    · exact hjump nnn
  | seImm | sneImm | seReg | sneReg | skp | sknp | ldVxK =>
    simp only [pcAfter]
    split_ifs <;> assumption
  | _ => exact hsame

/-- An instruction executed after its fetch keeps the bounds. -/
theorem Effect.addressesOk {i : Instr} {s t : State} (h : Effect i s t)
    (hstack : ∀ k : Fin 16, (s.stack.get k).toNat ≤ 0x1000) (hlo : 2 ≤ s.pc.toNat) (hhi : s.pc.toNat ≤ 0x1000) :
    t.AddressesOk := by
  refine ⟨h.pc ▸ pcAfter_le hstack hlo hhi i, fun k => ?_⟩
  obtain hk | hk := h.stack_get k
  · exact hk ▸ hstack k
  · exact hk ▸ hhi

/-- Settles O45: the pc and the stack entries are bounded together, since 2NNN pushes a pc and 00EE pops one; a
fetched instruction starts at most at 0x1000, so that a push stays within the stack's bound. -/
theorem addressesStayInBounds : Obligations.AddressesStayInBounds := by
  intro s t ⟨hpc, hstack⟩ h
  cases stepEffect_of_step h with
  | instr i hi ht =>
    have hfetch := le_of_fetched hi
    have hentry : (stepEntry s).pc.toNat = s.pc.toNat + 2 := by
      change (s.pc + 2).toNat = _
      bv_omega
    exact ht.addressesOk hstack (by omega) (by omega)
  | noOp hfetch =>
    refine ⟨?_, hstack⟩
    change (s.pc + 2).toNat ≤ _
    bv_omega
  | fetchError => exact ⟨hpc, hstack⟩

/-- Settles O46: the pc is 0x200 and every stack entry 0. -/
theorem resetAddressesAreInBounds : Obligations.ResetAddressesAreInBounds := by
  have hreset (p : Config.Params) : (State.resetWith p).AddressesOk := by
    refine ⟨show 0x200 ≤ 0x10FE by decide, fun k => ?_⟩
    simp [State.resetWith, Vector.get_eq_getElem]
  exact ⟨hreset, hreset _⟩

/-! ### Writers -/

/-- Settles O40, an effect at a time. -/
theorem eachElementHasItsWriters : Obligations.EachElementHasItsWriters := by
  intro i s
  obtain ⟨t, ht, h⟩ := exec_effect i s
  exact ⟨t, ht, h.sameMemory, h.stack, h.sp, h.index, h.dt, h.st, h.pix_draw, fun _ => h.reg, h.inputs⟩

/-- Settles O41: every effect carries the pc it leaves. -/
theorem pcAfterEachStep : Obligations.PcAfterEachStep := by
  refine ⟨fun i s => ?_, fun s => ?_⟩
  · obtain ⟨t, ht, h⟩ := exec_effect i s
    exact ⟨t, ht, h.pc⟩
  · obtain ⟨t, ht, h⟩ := step_effect s
    refine ⟨t, ht, ?_⟩
    cases h with
    | instr i hi heff =>
      have hpc := le_of_fetched hi
      refine ⟨fun j hj => ?_, fun hn => ?_, fun hlt => absurd hpc (Nat.not_le.mpr hlt)⟩
      · cases hi.symm.trans hj
        exact heff.pc
      · cases hn.symm.trans hi
    | noOp hpc hn =>
      refine ⟨fun j hj => ?_, fun _ _ => rfl, fun hlt => absurd hpc (Nat.not_le.mpr hlt)⟩
      cases hn.symm.trans hj
    | fetchError hlt =>
      exact ⟨fun j hj => absurd (le_of_fetched hj) (Nat.not_le.mpr hlt),
        fun _ hpc => absurd hpc (Nat.not_le.mpr hlt), fun _ => rfl⟩

/-! ### Pixels, draw, parameters -/

/-- Settles O44: a blank buffer has the size, and the display effect keeps it. -/
theorem pixelGridKeepsItsSize : Obligations.PixelGridKeepsItsSize := by
  refine ⟨fun p => Pixels.sized_blank _ _, fun s t hs h => ?_⟩
  cases stepEffect_of_step h with
  | instr i hi ht => exact ht.pixelsOk hs
  | noOp | fetchError => exact hs

/-- Settles O48: the display effect never clears `draw`, and no effect has the parameters. -/
theorem drawAndParametersPersist : Obligations.DrawAndParametersPersist := by
  refine ⟨fun s t h => ?_, fun s => rfl⟩
  cases stepEffect_of_step h with
  | instr i hi ht => exact ⟨ht.draw, ht.cfg⟩
  | noOp | fetchError => exact ⟨id, rfl⟩

/-! ### Reset -/

/-- Settles O43: reset lists no cell, and a Load is a run of single-byte writes. -/
theorem resetAndLoadMemoryIsCanonical : Obligations.ResetAndLoadMemoryIsCanonical := by
  refine ⟨fun p => Memory.wf_nil _, Memory.wf_nil _, fun bytes s hs => ?_⟩
  unfold hostLoad
  split_ifs
  · exact hs
  · exact State.memOk_pokes _ bytes hs

theorem resetByte_outside (p : Config.Params) {a : Nat}
    (h : a < p.fontBase.toNat ∨ p.fontBase.toNat + 80 ≤ a) : p.resetByte a = 0 := by
  unfold Config.Params.resetByte
  split_ifs with hle
  · have hsize : p.fontData.toArray.size ≤ a - p.fontBase.toNat := by
      rw [Vector.size_toArray]
      exact Nat.le_sub_of_add_le' (h.resolve_left (Nat.not_lt.mpr hle))
    rw [Array.getD_eq_getD_getElem?, Array.getElem?_eq_none hsize, Option.getD_none]
  · rfl

theorem resetByte_font (p : Config.Params) (k : Fin 80) :
    p.resetByte (p.fontBase.toNat + k.val) = p.fontData.get k := by
  simp [Config.Params.resetByte, Vector.get_eq_getElem]

/-- The reset values do not depend on the inputs that the host has lined up. -/
theorem hasResetValues_resetWith (p : Config.Params) (pending : List HostInput) (n : Nat) :
    HasResetValues p { State.resetWith p with pending := pending, stepNo := n } := by
  refine ⟨rfl, fun a ha => resetByte_outside p ha, resetByte_font p, ?_, rfl, rfl, rfl, ?_, rfl, rfl, ?_,
    Pixels.sized_blank _ _, pixelAt_blank _ _, rfl, ?_⟩
  · simp [State.reg, State.resetWith, Vector.get_eq_getElem]
  · simp [State.resetWith, Vector.get_eq_getElem]
  · simp [State.resetWith, Vector.get_eq_getElem]
  · simp [State.lastTick, State.resetWith]

/-- Settles O54: a host reset keeps the inputs lined up, and none of the reset values depends on them. -/
theorem resetLeavesTheseValues : Obligations.ResetLeavesTheseValues :=
  ⟨fun p => hasResetValues_resetWith p [] 0, hasResetValues_resetWith _ [] 0,
    fun s => hasResetValues_resetWith s.cfg s.pending s.stepNo⟩

/-! ### The sound timer

Two runs of one operation, from states that differ in ST alone: the answers differ in ST alone. -/

section SoundTimer
variable (s : State) (v : Byte)

theorem State.skipIf_setSt (b : Bool) : (s.setSt v).skipIf b = (s.skipIf b).setSt v := by
  rw [State.skipIf_eq, State.skipIf_eq]
  rfl

theorem State.lowestKey_setSt : (s.setSt v).lowestKey = s.lowestKey := rfl

theorem State.poke_setSt (a : Nat) (w : Byte) : (s.setSt v).poke a w = (s.poke a w).setSt v := by
  unfold State.poke
  split_ifs <;> rfl

theorem State.pokes_setSt (base : Nat) (ws : List Byte) :
    (s.setSt v).pokes base ws = (s.pokes base ws).setSt v := by
  induction ws generalizing s base with
  | nil => rfl
  | cons w ws ih => rw [State.pokes, State.pokes, State.poke_setSt, ih]

theorem writeBytes_setSt (base : Nat) (ws : List Byte) :
    writeBytes base ws (s.setSt v) = (writeBytes base ws s).map (·.setSt v) := by
  unfold writeBytes
  split_ifs
  · exact congrArg _ (s.pokes_setSt v base ws)
  · rfl

theorem State.popPc_setSt : (s.setSt v).popPc = s.popPc.map (·.setSt v) := by
  by_cases h : s.sp.val = 0
  · rw [State.popPc_empty h]
    exact State.popPc_empty (s := s.setSt v) h
  · rw [State.popPc_ok h]
    exact State.popPc_ok (s := s.setSt v) h

theorem State.push_setSt (w : Word) : (s.setSt v).push w = (s.push w).map (·.setSt v) := by
  by_cases h : s.sp.val < 16
  · rw [State.push_ok w h]
    exact State.push_ok (s := s.setSt v) w h
  · have h : s.sp.val = 16 := by omega
    rw [State.push_full w h]
    exact State.push_full (s := s.setSt v) w h

/-- Both results are next states, and they differ in the sound timer alone. -/
def SameButSt (r q : Result) : Prop := ∃ t w, r = .next t ∧ q = .next (t.setSt w)

theorem sameButSt_settle (r : Except StepError State) :
    SameButSt (settle s r) (settle (s.setSt v) (r.map (·.setSt v))) := by
  cases r with
  | ok t => exact ⟨t, v, rfl, rfl⟩
  | error e => exact ⟨s.report e, v, rfl, rfl⟩

theorem sameButSt_settle_map {α : Type} {f g : α → State} (hg : ∀ a, g a = (f a).setSt v)
    (r : Except StepError α) : SameButSt (settle s (r.map f)) (settle (s.setSt v) (r.map g)) := by
  cases r with
  | ok a => exact ⟨f a, v, rfl, congrArg _ (hg a)⟩
  | error e => exact ⟨s.report e, v, rfl, rfl⟩

/-- What an instruction does depends on the sound timer in the sound timer alone. -/
theorem exec_setSt (i : Instr) : SameButSt (exec i s) (exec i (s.setSt v)) := by
  cases i with
  | ret =>
    simp only [exec, execRet, State.popPc_setSt]
    exact sameButSt_settle s v _
  | call nnn =>
    simp only [exec, execCall, State.setSt_pc, State.push_setSt]
    cases s.push s.pc with
    | ok t => exact ⟨t.setPc (addr16 nnn), v, rfl, rfl⟩
    | error e => exact ⟨s.report e, v, rfl, rfl⟩
  | drw x y n => exact sameButSt_settle_map s v (fun _ => rfl) (readBytes s.base _ s)
  | ldRegs x => exact sameButSt_settle_map s v (fun _ => rfl) (readBytes s.base _ s)
  | skp x => exact sameButSt_settle_map s v (fun _ => s.skipIf_setSt v _) (s.keyNumber x)
  | sknp x => exact sameButSt_settle_map s v (fun _ => s.skipIf_setSt v _) (s.keyNumber x)
  | seImm | sneImm | seReg | sneReg => exact ⟨_, v, rfl, congrArg _ (s.skipIf_setSt v _)⟩
  | ldB x =>
    simp only [exec, execLdB, writeBytes_setSt]
    exact sameButSt_settle s v _
  | stRegs x =>
    simp only [exec, execStRegs, writeBytes_setSt]
    exact sameButSt_settle s v _
  | ldVxK x =>
    simp only [exec, execLdVxK, State.lowestKey_setSt]
    cases s.lowestKey with
    | none => exact ⟨_, v, rfl, rfl⟩
    | some k => exact ⟨_, v, rfl, rfl⟩
  | ldStVx x => exact ⟨_, s.reg x, rfl, rfl⟩
  | _ => exact ⟨_, v, rfl, rfl⟩

end SoundTimer

/-- Settles O51: the fetch does not read ST either, and the tick block reads it into itself. -/
theorem soundTimerIsNeverRead : Obligations.SoundTimerIsNeverRead := by
  intro s v
  change ∃ t w, step s = .next t ∧ step (s.setSt v) = .next (t.setSt w)
  have hentry : stepEntry (s.setSt v) = (stepEntry s).setSt (decay v s.input.ticks) := rfl
  by_cases hpc : s.pc.toNat ≤ 0xFFE
  · cases hi : fetched s with
    | none =>
      exact ⟨_, _, step_of_not_fetched hpc hi, step_of_not_fetched (s := s.setSt v) hpc hi⟩
    | some i =>
      rw [step_of_fetched hi, step_of_fetched (s := s.setSt v) hi, hentry]
      exact exec_setSt _ _ i
  · have hpc := Nat.lt_of_not_le hpc
    exact ⟨_, decay v s.input.ticks, step_of_fetch_error hpc, step_of_fetch_error (s := s.setSt v) hpc⟩

end Sys2Proof.Machine
end

section
/-!
PROOFS. The statements about memory (20_memory): a one-byte access, and the canonical form along every Step.
-/

namespace Sys2Proof.Machine

/-! ### One-byte accesses -/

section OneByte
variable (s : State) {a : Nat}

theorem memRead1_ok (h : a ≤ 0xFFF) : memRead1 a s = .ok (s.peek a) := if_neg (Nat.not_lt.mpr h)

theorem memRead1_error (h : a > 0xFFF) : memRead1 a s = .error (.addressError a) := if_pos h

theorem memWrite1_ok (v : Byte) (h : a ≤ 0xFFF) : memWrite1 a v s = .ok (s.poke a v) := if_neg (Nat.not_lt.mpr h)

theorem memWrite1_error (v : Byte) (h : a > 0xFFF) : memWrite1 a v s = .error (.addressError a) := if_pos h

/-- A byte that is poked into memory is read back. -/
theorem memRead1_poke_self (v : Byte) (h : a ≤ 0xFFF) : memRead1 a (s.poke a v) = .ok v := by
  rw [memRead1_ok _ h, s.peek_poke_self v (Nat.lt_succ_of_le h)]

/-- A read elsewhere answers as before, the address error included. -/
theorem memRead1_poke_other {b : Nat} (v : Byte) (h : b ≠ a) : memRead1 b (s.poke a v) = memRead1 b s := by
  rw [memRead1, memRead1, s.peek_poke_other v h]

end OneByte

/-- Settles O29: inside memory the write is a poke, which memory reads back; beyond, both accesses fail alike. -/
theorem readsSeeTheLastWrite : Obligations.ReadsSeeTheLastWrite := by
  refine ⟨fun s a v ha => ⟨memRead1_ok s ha, s.poke a v, memWrite1_ok s v ha, s.poke_eq a v,
    memRead1_poke_self s v ha, fun b hb => memRead1_poke_other s v hb⟩, fun s a v ha => ?_⟩
  exact ⟨memWrite1_error s v ha, memRead1_error s ha⟩

/-! ### The canonical form -/

/-- Only the store effect touches memory, and it keeps the canonical form. -/
theorem Effect.memOk {i : Instr} {s t : State} (h : Effect i s t) (hs : s.MemOk) : t.MemOk := by
  cases h with
  | store _ _ hm => exact hm hs
  | _ => exact hs

/-- Settles O42: a Step that executes an instruction has its effect, and every other Step leaves memory alone. -/
theorem memoryStaysCanonical : Obligations.MemoryStaysCanonical := by
  intro s t hs h
  cases stepEffect_of_step h with
  | instr i _ ht => exact ht.memOk hs
  | noOp | fetchError => exact hs

end Sys2Proof.Machine
end

section
/-!
PROOFS. The statements about decoding and encoding (30_encoding). Three facts carry them: decoding undoes
encoding (`decodeWord_encode`); every word is the encoding of what it decodes to, or is of a class of R86
(`decodeWord_case`); a word that a row selects is the encoding of an instruction of that row
(`encode_withFieldsOf`).
-/

namespace Sys2Proof

/-! ### Words from some of their fields -/

section WordOfFields
variable {op : Word} {t : BitVec 4}

theorem wordA_of_top (ht : fieldT op = t) : wordA t (fieldNNN op) = op := ht ▸ wordA_of_fields op

theorem wordRI_of_top (ht : fieldT op = t) : wordRI t (fieldX op) (fieldNN op) = op :=
  ht ▸ wordRI_of_fields op

theorem wordRRN_of_top (ht : fieldT op = t) : wordRRN t (fieldX op) (fieldY op) (fieldN op) = op :=
  ht ▸ wordRRN_of_fields op

theorem wordRI_of_fn {k : Byte} (ht : fieldT op = t) (hk : fieldNN op = k) : wordRI t (fieldX op) k = op :=
  hk ▸ wordRI_of_top ht

theorem wordRRN_of_fn {n : BitVec 4} (ht : fieldT op = t) (hn : fieldN op = n) :
    wordRRN t (fieldX op) (fieldY op) n = op :=
  hn ▸ wordRRN_of_top ht

/-! ### Words from what a mask keeps of them -/

theorem fieldT_of_and_top (h : op &&& 0xF000 = wordA t 0) : fieldT op = t := by
  rw [← wordA_of_fields op, and_wordA] at h
  simpa using congrArg fieldT h

theorem wordRI_of_and_fn {k : Byte} (h : op &&& 0xF0FF = wordRI t 0 k) : wordRI t (fieldX op) k = op := by
  rw [← wordRI_of_fields op, and_wordRI_fn] at h
  exact wordRI_of_fn (by simpa using congrArg fieldT h) (by simpa using congrArg fieldNN h)

theorem wordRRN_of_and_fn {n : BitVec 4} (h : op &&& 0xF00F = wordRRN t 0 0 n) :
    wordRRN t (fieldX op) (fieldY op) n = op := by
  rw [← wordRRN_of_fields op, and_wordRRN_fn] at h
  exact wordRRN_of_fn (by simpa using congrArg fieldT h) (by simpa using congrArg fieldN h)

end WordOfFields

/-! ### Decoding by the top nibble, where it leaves a choice -/

section DecodeByTop
variable {op : Word}

theorem decodeWord_of_zero (ht : fieldT op = 0x0) : decodeWord op = decode0 op := by
  simp [decodeWord, ht]

theorem decodeWord_of_five (ht : fieldT op = 0x5) : decodeWord op =
    if fieldN op = 0 then .ok (.seReg (fieldX op) (fieldY op)) else .error (.unrecognized .five) := by
  simp [decodeWord, ht]

theorem decodeWord_of_eight (ht : fieldT op = 0x8) :
    decodeWord op = decode8 (fieldX op) (fieldY op) (fieldN op) := by
  simp [decodeWord, ht]

theorem decodeWord_of_nine (ht : fieldT op = 0x9) : decodeWord op =
    if fieldN op = 0 then .ok (.sneReg (fieldX op) (fieldY op)) else .error (.unrecognized .nine) := by
  simp [decodeWord, ht]

theorem decodeWord_of_e (ht : fieldT op = 0xE) : decodeWord op = decodeE (fieldX op) (fieldNN op) := by
  simp [decodeWord, ht]

theorem decodeWord_of_f (ht : fieldT op = 0xF) : decodeWord op = decodeF (fieldX op) (fieldNN op) := by
  simp [decodeWord, ht]

end DecodeByTop

/-! ### Decoding undoes encoding -/

theorem decodeWord_eight (x y : Reg) (n : BitVec 4) : decodeWord (wordRRN 0x8 x y n) = decode8 x y n := by
  rw [decodeWord_of_eight (by simp)]; simp

theorem decodeWord_e (x : Reg) (k : Byte) : decodeWord (wordRI 0xE x k) = decodeE x k := by
  rw [decodeWord_of_e (by simp)]; simp

theorem decodeWord_f (x : Reg) (k : Byte) : decodeWord (wordRI 0xF x k) = decodeF x k := by
  rw [decodeWord_of_f (by simp)]; simp

theorem decodeWord_encode (i : Instr) : decodeWord (encode i) = .ok i := by
  cases i with
  | cls | ret => rfl
  | jp | call | ldI | jpV0 | seImm | sneImm | ldImm | addImm | rnd | seReg | sneReg | drw =>
    simp [encode, decodeWord]
  | ldReg | orReg | andReg | xorReg | addReg | sub | shr | subn | shl => exact decodeWord_eight ..
  | skp | sknp => exact decodeWord_e ..
  | ldVxDt | ldDtVx | ldStVx | addI | ldVxK | ldF | ldB | stRegs | ldRegs => exact decodeWord_f ..

/-- The bytes of a word decode as the word does, and the bytes after them are left over. -/
theorem decode_bytesOfWord (op : Word) (rest : List Byte) :
    decode (bytesOfWord op ++ rest) = (decodeWord op).map fun i => (i, rest) :=
  congrArg (fun w => (decodeWord w).map fun i => (i, rest)) (wordOfBytes_bytes op)

/-- Settles O1: the word of an instruction decodes to it, and so do the bytes of that word. -/
theorem decodeUndoesEncode : Obligations.DecodeUndoesEncode := by
  refine fun i => ⟨decodeWord_encode i, fun rest => ?_⟩
  rw [encodeBytes, decode_bytesOfWord, decodeWord_encode]
  rfl

/-! ### How a word is read -/

/-- The words of each class of 30_encoding R86. -/
def InClass (op : Word) : Unrecognized → Prop
  | .zero => fieldT op = 0x0 ∧ fieldNNN op ≠ 0x0E0 ∧ fieldNNN op ≠ 0x0EE
  | .five => fieldT op = 0x5 ∧ fieldN op ≠ 0
  | .eight => fieldT op = 0x8 ∧ fieldN op ∈ [0x8, 0x9, 0xA, 0xB, 0xC, 0xD, 0xF]
  | .nine => fieldT op = 0x9 ∧ fieldN op ≠ 0
  | .e => fieldT op = 0xE ∧ fieldNN op ∉ [0x9E, 0xA1]
  | .f => fieldT op = 0xF ∧ fieldNN op ∉ [0x07, 0x0A, 0x15, 0x18, 0x1E, 0x29, 0x33, 0x55, 0x65]

/-- The two ways a word is read: as the instruction it is the encoding of, or not at all, by its class. -/
inductive DecodeCase (op : Word) : Except DecodeError Instr → Prop
  | instr {i : Instr} (h : encode i = op) : DecodeCase op (.ok i)
  | unrecognized {c : Unrecognized} (h : InClass op c) : DecodeCase op (.error (.unrecognized c))

section DecodeCases
variable {op : Word}

theorem decode0_case (ht : fieldT op = 0x0) : DecodeCase op (decode0 op) := by
  unfold decode0
  split_ifs with hcls hret
  · exact .instr hcls.symm
  · exact .instr hret.symm
  · have hop := wordA_of_top ht
    refine .unrecognized ⟨ht, fun h => hcls ?_, fun h => hret ?_⟩
    · rw [← hop, h]; rfl
    · rw [← hop, h]; rfl

/-- The last case, `h_10`, is the function nibbles that the table leaves out. -/
theorem decode8_case (ht : fieldT op = 0x8) : DecodeCase op (decode8 (fieldX op) (fieldY op) (fieldN op)) := by
  unfold decode8
  split
  case h_10 =>
    refine .unrecognized ⟨ht, ?_⟩
    generalize fieldN op = n at *
    revert n; decide
  all_goals exact .instr (wordRRN_of_fn ht ‹_›)

theorem decodeE_case (ht : fieldT op = 0xE) : DecodeCase op (decodeE (fieldX op) (fieldNN op)) := by
  unfold decodeE
  split
  case h_3 h9E hA1 => exact .unrecognized ⟨ht, by simpa using ⟨h9E, hA1⟩⟩
  all_goals exact .instr (wordRI_of_fn ht ‹_›)

theorem decodeF_case (ht : fieldT op = 0xF) : DecodeCase op (decodeF (fieldX op) (fieldNN op)) := by
  unfold decodeF
  split
  case h_10 => exact .unrecognized ⟨ht, by simp_all⟩
  all_goals exact .instr (wordRI_of_fn ht ‹_›)

end DecodeCases

/-- Every word is read in one of the two ways. The cases `h_1` to `h_16` are the top nibbles 0 to F. -/
theorem decodeWord_case (op : Word) : DecodeCase op (decodeWord op) := by
  unfold decodeWord
  split
  case h_1 ht => exact decode0_case ht
  case h_6 ht =>
    split_ifs with hn
    · exact .instr (wordRRN_of_fn ht hn)
    · exact .unrecognized ⟨ht, hn⟩
  case h_9 ht => exact decode8_case ht
  case h_10 ht =>
    split_ifs with hn
    · exact .instr (wordRRN_of_fn ht hn)
    · exact .unrecognized ⟨ht, hn⟩
  case h_14 ht => exact .instr (wordRRN_of_top ht)
  case h_15 ht => exact decodeE_case ht
  case h_16 =>
    refine decodeF_case ?_
    generalize fieldT op = t at *
    revert t; decide
  case h_2 | h_3 | h_11 | h_12 => exact .instr (wordA_of_top ‹_›)
  all_goals exact .instr (wordRI_of_top ‹_›)

/-- Settles O2: a word that is read as an instruction is its encoding. -/
theorem encodeUndoesDecode : Obligations.EncodeUndoesDecode := by
  intro op i hi
  cases hi ▸ decodeWord_case op with
  | instr h => exact h

/-! ### The unrecognized words -/

theorem decode8_of_mem (x y : Reg) {n : BitVec 4} (hn : n ∈ [0x8, 0x9, 0xA, 0xB, 0xC, 0xD, 0xF]) :
    decode8 x y n = .error (.unrecognized .eight) := by
  simp only [List.mem_cons, List.not_mem_nil, or_false] at hn
  obtain rfl | rfl | rfl | rfl | rfl | rfl | rfl := hn <;> rfl

theorem decodeE_of_not_mem (x : Reg) {k : Byte} (hk : k ∉ [0x9E, 0xA1]) :
    decodeE x k = .error (.unrecognized .e) := by
  unfold decodeE
  split
  case h_3 => rfl
  all_goals exact absurd (by decide) hk

theorem decodeF_of_not_mem (x : Reg) {k : Byte}
    (hk : k ∉ [0x07, 0x0A, 0x15, 0x18, 0x1E, 0x29, 0x33, 0x55, 0x65]) :
    decodeF x k = .error (.unrecognized .f) := by
  unfold decodeF
  split
  case h_10 => rfl
  all_goals exact absurd (by decide) hk

/-- A word of a class of R86 is rejected as of that class. -/
theorem decodeWord_of_inClass {op : Word} {c : Unrecognized} (h : InClass op c) :
    decodeWord op = .error (.unrecognized c) := by
  cases c with
  | zero =>
    obtain ⟨ht, hcls, hret⟩ := h
    rw [decodeWord_of_zero ht, decode0, if_neg, if_neg]
    · rintro rfl; exact hret rfl
    · rintro rfl; exact hcls rfl
  | five => rw [decodeWord_of_five h.1, if_neg h.2]
  | eight => rw [decodeWord_of_eight h.1, decode8_of_mem _ _ h.2]
  | nine => rw [decodeWord_of_nine h.1, if_neg h.2]
  | e => rw [decodeWord_of_e h.1, decodeE_of_not_mem _ h.2]
  | f => rw [decodeWord_of_f h.1, decodeF_of_not_mem _ h.2]

theorem decodeWord_eq_unrecognized_iff (op : Word) (c : Unrecognized) :
    decodeWord op = .error (.unrecognized c) ↔ InClass op c := by
  refine ⟨fun h => ?_, decodeWord_of_inClass⟩
  cases h ▸ decodeWord_case op with
  | unrecognized hc => exact hc

theorem decodeWord_ne_truncated (op : Word) : decodeWord op ≠ .error .truncated := by
  intro h
  cases h ▸ decodeWord_case op

/-- Settles O4: a word is rejected as of a class exactly where it is in that class. -/
theorem unrecognizedWordsByClass : Obligations.UnrecognizedWordsByClass := by
  intro op
  have hiff := decodeWord_eq_unrecognized_iff op
  exact ⟨hiff .zero, hiff .five, hiff .eight, hiff .nine, hiff .e, hiff .f, decodeWord_ne_truncated op⟩

/-! ### The rows of the table -/

/-- The instruction of the same row whose operands are the word's fields. -/
def Instr.withFieldsOf (op : Word) : Instr → Instr
  | .cls => .cls
  | .ret => .ret
  | .jp _ => .jp (fieldNNN op)
  | .call _ => .call (fieldNNN op)
  | .seImm _ _ => .seImm (fieldX op) (fieldNN op)
  | .sneImm _ _ => .sneImm (fieldX op) (fieldNN op)
  | .seReg _ _ => .seReg (fieldX op) (fieldY op)
  | .sneReg _ _ => .sneReg (fieldX op) (fieldY op)
  | .ldImm _ _ => .ldImm (fieldX op) (fieldNN op)
  | .addImm _ _ => .addImm (fieldX op) (fieldNN op)
  | .ldReg _ _ => .ldReg (fieldX op) (fieldY op)
  | .orReg _ _ => .orReg (fieldX op) (fieldY op)
  | .andReg _ _ => .andReg (fieldX op) (fieldY op)
  | .xorReg _ _ => .xorReg (fieldX op) (fieldY op)
  | .addReg _ _ => .addReg (fieldX op) (fieldY op)
  | .sub _ _ => .sub (fieldX op) (fieldY op)
  | .shr _ _ => .shr (fieldX op) (fieldY op)
  | .subn _ _ => .subn (fieldX op) (fieldY op)
  | .shl _ _ => .shl (fieldX op) (fieldY op)
  | .ldI _ => .ldI (fieldNNN op)
  | .jpV0 _ => .jpV0 (fieldNNN op)
  | .rnd _ _ => .rnd (fieldX op) (fieldNN op)
  | .drw _ _ _ => .drw (fieldX op) (fieldY op) (fieldN op)
  | .skp _ => .skp (fieldX op)
  | .sknp _ => .sknp (fieldX op)
  | .ldVxDt _ => .ldVxDt (fieldX op)
  | .ldDtVx _ => .ldDtVx (fieldX op)
  | .ldStVx _ => .ldStVx (fieldX op)
  | .addI _ => .addI (fieldX op)
  | .ldVxK _ => .ldVxK (fieldX op)
  | .ldF _ => .ldF (fieldX op)
  | .ldB _ => .ldB (fieldX op)
  | .stRegs _ => .stRegs (fieldX op)
  | .ldRegs _ => .ldRegs (fieldX op)

theorem rowOf_withFieldsOf (op : Word) (i : Instr) : rowOf (i.withFieldsOf op) = rowOf i := by
  cases i <;> rfl

/-- A word that an instruction's row selects is the encoding of an instruction of that row. -/
theorem encode_withFieldsOf {op : Word} {i : Instr} (h : op &&& (rowOf i).mask = (rowOf i).value) :
    encode (i.withFieldsOf op) = op := by
  cases i with
  | cls | ret => exact h.symm.trans (BitVec.and_allOnes (x := op))
  | jp | call | ldI | jpV0 => exact wordA_of_top (fieldT_of_and_top h)
  | seImm | sneImm | ldImm | addImm | rnd => exact wordRI_of_top (fieldT_of_and_top h)
  | drw => exact wordRRN_of_top (fieldT_of_and_top h)
  | seReg | sneReg | ldReg | orReg | andReg | xorReg | addReg | sub | shr | subn | shl =>
    exact wordRRN_of_and_fn h
  | skp | sknp | ldVxDt | ldDtVx | ldStVx | addI | ldVxK | ldF | ldB | stRegs | ldRegs =>
    exact wordRI_of_and_fn h

/-- A row of the table that selects a word is the row of an instruction that the word decodes to. -/
theorem decodeWord_of_selects {r : OpcodeRow} {op : Word} (hr : r ∈ opcodeTable) (h : r.selects op = true) :
    ∃ i, decodeWord op = .ok i ∧ r = rowOf i := by
  obtain ⟨i, -, rfl⟩ := List.mem_map.mp hr
  have henc : encode (i.withFieldsOf op) = op := encode_withFieldsOf (eq_of_beq h)
  refine ⟨i.withFieldsOf op, ?_, (rowOf_withFieldsOf op i).symm⟩
  rw [← decodeWord_encode (i.withFieldsOf op), henc]

open Laws.Encoded in
/-- The family Encoded as one fact about every instruction. -/
theorem encoded_statement : ∀ i : Instr, Statement i
  | .cls => cls
  | .ret => ret
  | .jp a => jp a
  | .call a => call a
  | .seImm x k => seImm x k
  | .sneImm x k => sneImm x k
  | .seReg x y => seReg x y
  | .sneReg x y => sneReg x y
  | .ldImm x k => ldImm x k
  | .addImm x k => addImm x k
  | .ldReg x y => ldReg x y
  | .orReg x y => orReg x y
  | .andReg x y => andReg x y
  | .xorReg x y => xorReg x y
  | .addReg x y => addReg x y
  | .sub x y => sub x y
  | .shr x y => shr x y
  | .subn x y => subn x y
  | .shl x y => shl x y
  | .ldI a => ldI a
  | .jpV0 a => jpV0 a
  | .rnd x k => rnd x k
  | .drw x y n => drw x y n
  | .skp x => skp x
  | .sknp x => sknp x
  | .ldVxDt x => ldVxDt x
  | .ldDtVx x => ldDtVx x
  | .ldStVx x => ldStVx x
  | .addI x => addI x
  | .ldVxK x => ldVxK x
  | .ldF x => ldF x
  | .ldB x => ldB x
  | .stRegs x => stRegs x
  | .ldRegs x => ldRegs x

/-- Settles O3: a row that selects a word is the row of the instruction the word decodes to, and that row does
select it. -/
theorem decodeSelectsTheUniqueRow : Obligations.DecodeSelectsTheUniqueRow := by
  refine ⟨rfl, fun op => ?_⟩
  cases hop : decodeWord op with
  | ok i =>
    obtain ⟨-, hmem, hand⟩ := encoded_statement i
    rw [encodeUndoesDecode op i hop] at hand
    refine ⟨hmem, beq_iff_eq.mpr hand, fun r hr hsel => ?_⟩
    obtain ⟨j, hj, rfl⟩ := decodeWord_of_selects hr hsel
    cases hop.symm.trans hj
    rfl
  | error e =>
    refine fun r hr => Bool.eq_false_iff.mpr fun hsel => ?_
    obtain ⟨j, hj, -⟩ := decodeWord_of_selects hr hsel
    cases hop.symm.trans hj

/-! ### Sample words -/

/-- Settles O5: the words are closed, and decoding computes. -/
theorem sampleWordsDecode : Obligations.SampleWordsDecode := by
  unfold Obligations.SampleWordsDecode
  decide

end Sys2Proof
end

section
/-!
PROOFS. The statements about the Step cycle (40_step_cycle): a Step's phases are read off what a Step can do, and
the random byte off two runs of one instruction.
-/

namespace Sys2Proof.Machine

/-! ### Errors -/

/-- Settles O33: the report is the one effect that changes the outcome, and it changes nothing else. -/
theorem errorsArePrecise : Obligations.ErrorsArePrecise := by
  intro i s hs
  obtain ⟨t, ht, heff⟩ := exec_effect i s
  refine ⟨t, ht, fun e he => ?_⟩
  cases heff with
  | report e' =>
    cases he
    exact ⟨rfl, fun _ => rfl⟩
  | _ => cases hs.symm.trans he

/-! ### The Step with its inputs given -/

/-- Where the fetch succeeds, a Step is the instruction fetched, if there is one, in the state after the pc's
advance (R104, R105). -/
theorem cycle_of_fetch_ok (inp : HostInput) {s : State} (h : s.pc.toNat ≤ 0xFFE) :
    cycle inp s = (fetched s).elim (.next (s.afterInputs inp).skip) (exec · (s.afterInputs inp).skip) := by
  have hf : fetch (s.afterInputs inp) =
      .ok (wordOfBytes (s.peek s.pc.toNat) (s.peek (s.pc.toNat + 1))) := fetch_ok _ h
  simp only [cycle, hf, executeWord, fetched, if_pos h, decode]
  cases decodeWord (wordOfBytes (s.peek s.pc.toNat) (s.peek (s.pc.toNat + 1))) <;> rfl

/-- A Step whose fetch leaves memory reports it and nothing else (R103). -/
theorem cycle_of_fetch_error (inp : HostInput) {s : State} (h : 0xFFE < s.pc.toNat) :
    cycle inp s = .next ((s.afterInputs inp).report (.addressError s.pc.toNat)) := by
  have hf : fetch (s.afterInputs inp) = .error (.addressError s.pc.toNat) := fetch_error _ h
  simp only [cycle, hf]
  rfl

theorem cycle_next (inp : HostInput) (s : State) : ∃ t, cycle inp s = .next t := by
  by_cases hpc : s.pc.toNat ≤ 0xFFE
  · rw [cycle_of_fetch_ok inp hpc]
    cases fetched s with
    | none => exact ⟨_, rfl⟩
    | some i => exact (exec_effect i _).imp fun _ h => h.1
  · exact ⟨_, cycle_of_fetch_error inp (Nat.lt_of_not_le hpc)⟩

/-- Settles O35: every instruction has an effect, and a Step adds the fetch error and the no-op. -/
theorem everyStepCompletes : Obligations.EveryStepCompletes :=
  ⟨fun i s => (exec_effect i s).imp fun _ h => h.1, cycle_next, fun s => cycle_next s.input s.takeInput⟩

/-! ### The phases of a Step -/

/-- Settles O36: bytes that decode are the instruction fetched. -/
theorem stepRunsTheDecodedInstruction : Obligations.StepRunsTheDecodedInstruction := by
  intro s i hpc hdec _
  exact step_of_fetched (by rw [fetched, if_pos hpc, hdec])

/-- Settles O37: where the bytes do not decode, no instruction is fetched. -/
theorem unrecognizedWordIsANoOp : Obligations.UnrecognizedWordIsANoOp := by
  intro s hpc hdec
  refine ⟨step_of_not_fetched hpc ?_, rfl⟩
  rw [fetched, if_pos hpc]
  cases h : decode [s.peek s.pc.toNat, s.peek (s.pc.toNat + 1)] with
  | ok p => exact absurd h (hdec p.1 p.2)
  | error e => rfl

theorem toNat_append_byte (hi lo : Byte) : (hi ++ lo).toNat = hi.toNat * 256 + lo.toNat := by
  rw [BitVec.toNat_append, ← Nat.shiftLeft_add_eq_or_of_lt lo.isLt, Nat.shiftLeft_eq]

/-- Settles O38: the fetch error leaves the pc where it was, beyond memory, so the next Step has it again. -/
theorem fetchReadsTheWordOrReports : Obligations.FetchReadsTheWordOrReports := by
  refine ⟨fun s hpc => ⟨_, fetch_ok s hpc, toNat_append_byte _ _⟩, fun s hpc => ?_⟩
  exact ⟨_, _, rfl, step_of_fetch_error hpc, step_of_fetch_error hpc, rfl, rfl⟩

/-- What a Step leaves in the inputs' elements, whatever its word is. -/
theorem StepEffect.inputs {s t : State} (h : StepEffect s t) :
    t.key = s.input.keysIn ∧ t.tLast = s.tLast + s.input.ticks ∧ t.cfg = s.cfg ∧ t.rnd = s.input.rnd ∧
      t.loadOpen = false ∧ t.pending = s.pending.tail ∧ t.stepNo = s.stepNo + 1 := by
  cases h with
  | instr i _ ht => exact ht.inputs
  | noOp | fetchError => exact ⟨rfl, rfl, rfl, rfl, rfl, rfl, rfl⟩

/-- Settles O39: no instruction touches what the inputs have left. -/
theorem stepTakesTheHostsInputs : Obligations.StepTakesTheHostsInputs := by
  refine ⟨fun s inp rest h => ?_, fun s h => ?_, fun s => ?_⟩
  · rw [State.input, h]
  · rw [State.input, h]
  · obtain ⟨t, ht, heff⟩ := step_effect s
    obtain ⟨hkey, -, -, hrnd, hload, hpending, hno⟩ := heff.inputs
    exact ⟨t, ht, hkey, hrnd, hpending, hno, hload⟩

/-! ### The timers along a Step -/

theorem eq_ldDtVx_of_mnemonic {i : Instr} (h : (rowOf i).mnemonic = "LD_DT_VX") : ∃ x, i = .ldDtVx x := by
  cases i with
  | ldDtVx x => exact ⟨x, rfl⟩
  | _ => simp [rowOf] at h

theorem eq_ldStVx_of_mnemonic {i : Instr} (h : (rowOf i).mnemonic = "LD_ST_VX") : ∃ x, i = .ldStVx x := by
  cases i with
  | ldStVx x => exact ⟨x, rfl⟩
  | _ => simp [rowOf] at h

section StepTimers
variable {s t : State}

/-- A Step that does not execute FX15 leaves the delay timer as its ticks do. -/
theorem StepEffect.dt (h : StepEffect s t) (hn : ∀ x, fetched s ≠ some (.ldDtVx x)) :
    t.dt = decay s.dt s.input.ticks := by
  cases h with
  | instr i hi ht =>
    refine ht.dt fun hm => ?_
    obtain ⟨x, rfl⟩ := eq_ldDtVx_of_mnemonic hm
    exact hn x hi
  | noOp | fetchError => rfl

/-- A Step that does not execute FX18 leaves the sound timer as its ticks do. -/
theorem StepEffect.st (h : StepEffect s t) (hn : ∀ x, fetched s ≠ some (.ldStVx x)) :
    t.st = decay s.st s.input.ticks := by
  cases h with
  | instr i hi ht =>
    refine ht.st fun hm => ?_
    obtain ⟨x, rfl⟩ := eq_ldStVx_of_mnemonic hm
    exact hn x hi
  | noOp | fetchError => rfl

theorem dt_of_fetched {x : Reg} (ht : step s = .next t) (hi : fetched s = some (.ldDtVx x)) : t.dt = s.reg x := by
  cases (step_of_fetched hi).symm.trans ht
  rfl

theorem st_of_fetched {x : Reg} (ht : step s = .next t) (hi : fetched s = some (.ldStVx x)) : t.st = s.reg x := by
  cases (step_of_fetched hi).symm.trans ht
  rfl

end StepTimers

/-- Settles O23: only FX15 and FX18 write a timer after the ticks, and they write `x[X]`. -/
theorem timersFallByTheTicks : Obligations.TimersFallByTheTicks := by
  intro s
  obtain ⟨t, ht, heff⟩ := step_effect s
  obtain ⟨-, htLast, -⟩ := heff.inputs
  exact ⟨t, ht, htLast, fun hn => by rw [heff.dt hn, decay_toNat], fun x hi => dt_of_fetched ht hi,
    fun hn => by rw [heff.st hn, decay_toNat], fun x hi => st_of_fetched ht hi⟩

end Sys2Proof.Machine
end

section
/-!
PROOFS. What no instruction reads: ST, `draw`, the outcome and the fault record, and, CXNN apart, the random byte
(10_state R28, 44_display R195, 60_exceptions R259, 40_step_cycle R109). Two runs of one instruction from states
that differ in these elements alone leave states that differ in these elements alone.
-/

namespace Sys2Proof.Machine

/-- The elements of the state that no instruction reads, the random byte read by CXNN alone. -/
@[ext] structure Unread where
  st : Byte
  draw : Bool
  rnd : Byte
  outcome : StepOutcome
  errSeen : Bool

/-- What a state holds in these elements. -/
def State.unread (s : State) : Unread := ⟨s.st, s.draw, s.rnd, s.outcome, s.errSeen⟩

/-- The state with other values in these elements. -/
def State.withUnread (s : State) (u : Unread) : State :=
  { s with st := u.st, draw := u.draw, rnd := u.rnd, outcome := u.outcome, errSeen := u.errSeen }

/-- Two runs that held `a` and `b` in an element before hold `a'` and `b'` after: both kept what they held, or both
now hold the same. -/
def KeptOrSame {α : Type} (a b a' b' : α) : Prop := (a' = a ∧ b' = b) ∨ a' = b'

theorem KeptOrSame.kept {α : Type} (a b : α) : KeptOrSame a b a b := .inl ⟨rfl, rfl⟩

theorem KeptOrSame.eq {α : Type} {a b a' b' : α} (h : KeptOrSame a b a' b') (hab : a = b) : a' = b' := by
  obtain ⟨rfl, rfl⟩ | h := h
  · exact hab
  · exact h

/-- Two runs of one instruction, which held `u` and `w` in the unread elements before and hold `u'` and `w'` after:
each element was kept by both or written alike by both, and the random byte was kept. -/
structure RunAlike (u w u' w' : Unread) : Prop where
  st : KeptOrSame u.st w.st u'.st w'.st
  draw : KeptOrSame u.draw w.draw u'.draw w'.draw
  rnd : u'.rnd = u.rnd ∧ w'.rnd = w.rnd
  outcome : KeptOrSame u.outcome w.outcome u'.outcome w'.outcome
  errSeen : KeptOrSame u.errSeen w.errSeen u'.errSeen w'.errSeen

theorem RunAlike.kept (u w : Unread) : RunAlike u w u w :=
  ⟨.kept _ _, .kept _ _, ⟨rfl, rfl⟩, .kept _ _, .kept _ _⟩

/-- An error is reported alike by both runs. -/
theorem RunAlike.report (u w : Unread) (e : StepError) :
    RunAlike u w { u with outcome := .err e, errSeen := true } { w with outcome := .err e, errSeen := true } :=
  ⟨.kept _ _, .kept _ _, ⟨rfl, rfl⟩, .inr rfl, .inr rfl⟩

section TwoRuns
variable (s : State) (u : Unread)

/-! ### The shared operations -/

theorem State.skipIf_withUnread (b : Bool) : (s.withUnread u).skipIf b = (s.skipIf b).withUnread u := by
  cases b <;> rfl

theorem State.unread_skipIf (b : Bool) : (s.skipIf b).unread = s.unread := by
  cases b <;> rfl

theorem State.lowestKey_withUnread : (s.withUnread u).lowestKey = s.lowestKey := rfl

theorem State.poke_withUnread (a : Nat) (v : Byte) : (s.withUnread u).poke a v = (s.poke a v).withUnread u := by
  unfold State.poke
  split_ifs <;> rfl

theorem State.pokes_withUnread (base : Nat) (vs : List Byte) :
    (s.withUnread u).pokes base vs = (s.pokes base vs).withUnread u := by
  induction vs generalizing s base with
  | nil => rfl
  | cons v vs ih => rw [State.pokes, State.pokes, State.poke_withUnread, ih]

/-! ### The instructions -/

/-- Both results are next states, which differ in the unread elements alone, each kept or written alike. -/
def SameButUnread (r q : Result) : Prop :=
  ∃ t w, r = .next t ∧ q = .next (t.withUnread w) ∧ RunAlike s.unread u t.unread w

/-- Both results are the error, raised in the two states. -/
theorem sameButUnread_raise (e : StepError) : SameButUnread s u (raise e s) (raise e (s.withUnread u)) :=
  ⟨s.report e, _, rfl, rfl, .report _ _ e⟩

/-- An instruction that settles with an update `f` that the two runs share but for the unread elements. -/
theorem sameButUnread_settle_map {α : Type} {f g : α → State} {w : Unread}
    (hg : ∀ a, g a = (f a).withUnread w) (r : Except StepError α)
    (hw : ∀ a, RunAlike s.unread u (f a).unread w) :
    SameButUnread s u (settle s (r.map f)) (settle (s.withUnread u) (r.map g)) := by
  cases r with
  | ok a => exact ⟨f a, w, rfl, congrArg _ (hg a), hw a⟩
  | error e => exact sameButUnread_raise s u e

theorem execRet_withUnread : SameButUnread s u (execRet s) (execRet (s.withUnread u)) := by
  by_cases h : s.sp.val = 0
  · rw [execRet, execRet, State.popPc_empty h, State.popPc_empty (s := s.withUnread u) h]
    exact sameButUnread_raise s u _
  · rw [execRet, execRet, State.popPc_ok h, State.popPc_ok (s := s.withUnread u) h]
    exact ⟨_, u, rfl, rfl, .kept _ _⟩

theorem execCall_withUnread (nnn : BitVec 12) :
    SameButUnread s u (execCall nnn s) (execCall nnn (s.withUnread u)) := by
  by_cases h : s.sp.val = 16
  · rw [execCall, execCall, State.push_full _ h, State.push_full (s := s.withUnread u) _ h]
    exact sameButUnread_raise s u _
  · have h : s.sp.val < 16 := by omega
    rw [execCall, execCall, State.push_ok _ h, State.push_ok (s := s.withUnread u) _ h]
    exact ⟨_, u, rfl, rfl, .kept _ _⟩

theorem settle_writeBytes_withUnread (base : Nat) (vs : List Byte) :
    SameButUnread s u (settle s (writeBytes base vs s))
      (settle (s.withUnread u) (writeBytes base vs (s.withUnread u))) := by
  by_cases h : vs.length = 0 ∨ base + vs.length - 1 ≤ 0xFFF
  · rw [writeBytes_ok _ h, writeBytes_ok _ h, State.pokes_withUnread]
    refine ⟨_, u, rfl, rfl, ?_⟩
    rw [State.pokes_eq]
    exact .kept _ _
  · rw [writeBytes_error _ h, writeBytes_error _ h]
    exact sameButUnread_raise s u _

theorem execCls_withUnread : SameButUnread s u (execCls s) (execCls (s.withUnread u)) := by
  refine ⟨_, { u with draw := u.draw || s.cfg.clsSetsRedraw }, rfl, rfl, .kept _ _, ?_, ⟨rfl, rfl⟩, .kept _ _,
    .kept _ _⟩
  cases hc : s.cfg.clsSetsRedraw with
  | true => exact .inr (by simp [State.unread])
  | false => exact .inl (by simp [State.unread])

theorem execLdVxK_withUnread (x : Reg) :
    SameButUnread s u (execLdVxK x s) (execLdVxK x (s.withUnread u)) := by
  rw [execLdVxK, execLdVxK, State.lowestKey_withUnread]
  cases s.lowestKey with
  | none => exact ⟨_, u, rfl, rfl, .kept _ _⟩
  | some k => exact ⟨_, u, rfl, rfl, .kept _ _⟩

/-- What an instruction does depends on the unread elements in those elements alone. -/
theorem exec_withUnread (i : Instr) (hi : ∀ x nn, i = .rnd x nn → u.rnd = s.rnd) :
    SameButUnread s u (exec i s) (exec i (s.withUnread u)) := by
  cases i with
  | cls => exact execCls_withUnread s u
  | ret => exact execRet_withUnread s u
  | call nnn => exact execCall_withUnread s u nnn
  | ldVxK x => exact execLdVxK_withUnread s u x
  | ldB x => exact settle_writeBytes_withUnread s u _ _
  | stRegs x => exact settle_writeBytes_withUnread s u _ _
  | drw x y n =>
    exact sameButUnread_settle_map s u (w := { u with draw := true }) (fun _ => rfl) (readBytes s.base _ s)
      fun _ => ⟨.kept _ _, .inr rfl, ⟨rfl, rfl⟩, .kept _ _, .kept _ _⟩
  | ldRegs x => exact sameButUnread_settle_map s u (fun _ => rfl) (readBytes s.base _ s) fun _ => .kept _ _
  | skp x | sknp x =>
    exact sameButUnread_settle_map s u (fun _ => s.skipIf_withUnread u _) (s.keyNumber x) fun _ =>
      s.unread_skipIf _ ▸ .kept _ _
  | seImm | sneImm | seReg | sneReg =>
    exact ⟨_, u, rfl, congrArg _ (s.skipIf_withUnread u _), s.unread_skipIf _ ▸ .kept _ _⟩
  | rnd x nn =>
    refine ⟨_, u, rfl, ?_, .kept _ _⟩
    change Host.Outcome.next ((s.setReg x (u.rnd &&& nn)).withUnread u) = _
    rw [hi x nn rfl]
  | ldStVx x => exact ⟨_, { u with st := s.reg x }, rfl, rfl, .inr rfl, .kept _ _, ⟨rfl, rfl⟩, .kept _ _, .kept _ _⟩
  | _ => exact ⟨_, u, rfl, rfl, .kept _ _⟩

end TwoRuns

/-! ### The random byte -/

/-- The random byte alone: two runs that held the same in the other unread elements still do. -/
theorem exec_withRnd {i : Instr} (s : State) (v : Byte) (hi : ∀ x nn, i ≠ .rnd x nn) :
    ∃ t, exec i s = .next t ∧ exec i { s with rnd := v } = .next { t with rnd := v } := by
  obtain ⟨t, w, ht, hw, hst, hdraw, ⟨-, hrnd⟩, houtcome, herr⟩ :=
    exec_withUnread s { s.unread with rnd := v } i fun x nn h => absurd h (hi x nn)
  obtain rfl : w = { t.unread with rnd := v } :=
    Unread.ext (hst.eq rfl).symm (hdraw.eq rfl).symm hrnd (houtcome.eq rfl).symm (herr.eq rfl).symm
  exact ⟨t, ht, hw⟩

/-- Settles O53: the random byte is latched before the fetch, which does not read it. -/
theorem randomByteMattersOnlyToRnd : Obligations.RandomByteMattersOnlyToRnd := by
  intro inp s v hn
  by_cases hpc : s.pc.toNat ≤ 0xFFE
  · rw [cycle_of_fetch_ok _ hpc, cycle_of_fetch_ok _ hpc]
    cases hi : fetched s with
    | none => exact ⟨_, rfl, rfl⟩
    | some i => exact exec_withRnd _ v fun x nn h => hn x nn (h ▸ hi)
  · have hpc := Nat.lt_of_not_le hpc
    exact ⟨_, cycle_of_fetch_error inp hpc, cycle_of_fetch_error _ hpc⟩

end Sys2Proof.Machine
end

section
/-!
PROOFS. The statements about control transfer (41_flow): what a call and a return do to the stack, which entry a
Step can write, and the jumps and skips.
-/

namespace Sys2Proof.Machine

/-- A word that encodes an instruction decodes to it. -/
theorem decodeWord_of_encode_eq {op : Word} {i : Instr} (h : encode i = op) : decodeWord op = .ok i :=
  h ▸ decodeWord_encode i

/-- A 12-bit address keeps its value in the pc (30_encoding R83). -/
@[simp] theorem addr16_toNat (nnn : BitVec 12) : (addr16 nnn).toNat = nnn.toNat :=
  BitVec.toNat_setWidth_of_le (by decide)

/-! ### The call and the return -/

section CallAndReturn
variable {s : State} (nnn : BitVec 12)

theorem exec_call_of_lt (h : s.sp.val < 16) :
    exec (.call nnn) s = .next { s with
      stack := s.stack.set s.sp.val s.pc h, sp := ⟨s.sp.val + 1, by omega⟩, pc := addr16 nnn } := by
  rw [exec, execCall, State.push_ok _ h]
  rfl

theorem exec_call_of_full (h : s.sp.val = 16) : exec (.call nnn) s = .next (s.report .stackOverflow) := by
  rw [exec, execCall, State.push_full _ h]
  rfl

theorem exec_ret_of_succ {k : Fin 16} (h : s.sp.val = k.val + 1) :
    exec .ret s = .next { s with sp := k.castSucc, pc := s.stack.get k } := by
  have hk : s.sp.val - 1 = k.val := by omega
  rw [exec, execRet, State.popPc_ok (by omega), settle_ok]
  simp only [hk]
  rfl

theorem exec_ret_of_empty (h : s.sp.val = 0) : exec .ret s = .next (s.report .stackUnderflow) := by
  rw [exec, execRet, State.popPc_empty h, settle_error]

end CallAndReturn

/-! ### Which stack entry a Step can write -/

theorem eq_call_of_mnemonic {i : Instr} (h : (rowOf i).mnemonic = "CALL") : ∃ a, i = .call a := by
  cases i with
  | call a => exact ⟨a, rfl⟩
  | _ => simp [rowOf] at h

/-- The one stack entry an instruction can write is entry `sp`, and only 2NNN writes it. -/
theorem Effect.stack_get_eq {i : Instr} {s t : State} (h : Effect i s t) (k : Fin 16)
    (hk : (rowOf i).mnemonic = "CALL" → s.sp.val ≠ k.val) : t.stack.get k = s.stack.get k := by
  cases h with
  | push hi => simp only [Vector.get_eq_getElem, Vector.getElem_set_ne _ _ (hk hi)]
  | _ => rfl

/-- A Step changes a stack entry only where it executes 2NNN with that entry the next free one. -/
theorem stack_get_of_step {s t : State} (h : step s = .next t) (k : Fin 16)
    (hk : ∀ a, fetched s = some (.call a) → s.sp.val ≠ k.val) : t.stack.get k = s.stack.get k := by
  cases stepEffect_of_step h with
  | instr i hi ht =>
    refine ht.stack_get_eq k fun hm => ?_
    obtain ⟨a, rfl⟩ := eq_call_of_mnemonic hm
    exact hk a hi
  | noOp | fetchError => rfl

/-- Settles O49: an entry in use lies below `sp`, and only entry `sp` can be written. -/
theorem stackEntriesInUseAreKept : Obligations.StackEntriesInUseAreKept :=
  fun _ _ h k hk => stack_get_of_step h k fun _ _ => hk.ne'

/-- A stack entry lasts through a run whose every 2NNN executes with another `sp`. -/
theorem stack_get_of_run (k : Fin 16) (f : Nat → State) (n : Nat)
    (hrun : ∀ i, i < n → step (f i) = .next (f (i + 1)))
    (hcall : ∀ i, i < n → ∀ a, fetched (f i) = some (.call a) → (f i).sp.val ≠ k.val) :
    (f n).stack.get k = (f 0).stack.get k := by
  induction n with
  | zero => rfl
  | succ n ih =>
    have hlast := stack_get_of_step (hrun n n.lt_succ_self) k (hcall n n.lt_succ_self)
    exact hlast.trans (ih (fun i hi => hrun i (hi.trans n.lt_succ_self))
      fun i hi => hcall i (hi.trans n.lt_succ_self))

/-- A Step that executes 2NNN with a free entry stores the address of the next instruction there. -/
theorem stack_get_of_step_call {s t : State} {nnn : BitVec 12} (hi : fetched s = some (.call nnn))
    (h : s.sp.val < 16) (ht : step s = .next t) : t.stack.get ⟨s.sp.val, h⟩ = s.pc + 2 := by
  rw [step_of_fetched hi, exec_call_of_lt (s := stepEntry s) nnn h] at ht
  cases ht
  simp [stepEntry, Vector.get_eq_getElem]

/-- Settles O17: the call writes A + 2 into entry `d`, which only a 2NNN executed with `sp = d` could write again,
however far the returns in between go down; the return reads that entry. -/
theorem returnComesBackAfterTheCall : Obligations.ReturnComesBackAfterTheCall := by
  intro s nnn n f hcall hsp hfirst hrun hno hret hend
  have hentry : (f n).stack.get ⟨s.sp.val, hsp⟩ = s.pc + 2 :=
    (stack_get_of_run ⟨s.sp.val, hsp⟩ f n hrun hno).trans (stack_get_of_step_call hcall hsp hfirst)
  refine ⟨_, (step_of_fetched hret).trans (exec_ret_of_succ (k := ⟨s.sp.val, hsp⟩) hend), hentry, rfl⟩

/-- Settles O15: the two equations of 2NNN, with a free entry and without. -/
theorem callPushesOrOverflows : Obligations.CallPushesOrOverflows := by
  refine ⟨fun op ht => ?_, fun s nnn h => ?_, fun s nnn h => ?_⟩
  · exact decodeWord_of_encode_eq (i := .call _) (wordA_of_top ht)
  · refine ⟨_, exec_call_of_lt nnn h, ?_, fun k hk => ?_, rfl, addr16_toNat nnn, rfl, fun _ => rfl⟩
    · simp [Vector.get_eq_getElem]
    · simp only [Vector.get_eq_getElem, Vector.getElem_set_ne _ _ hk.symm]
  · exact ⟨_, exec_call_of_full nnn h, rfl, fun _ => rfl⟩

/-- Settles O16: the two equations of 00EE, with an entry in use and without. -/
theorem returnPopsOrUnderflows : Obligations.ReturnPopsOrUnderflows := by
  refine ⟨rfl, fun s k h => ?_, fun s h => ?_, fetch_error⟩
  · exact ⟨_, exec_ret_of_succ h, rfl, rfl, rfl, rfl, fun _ => rfl⟩
  · exact ⟨_, exec_ret_of_empty h, rfl, fun _ => rfl⟩

/-! ### Jumps and skips -/

theorem onlyPc_setPc (s : State) (w : Word) : OnlyPc s (s.setPc w) := ⟨rfl, fun _ => rfl⟩

/-- BNNN's sum is exact: a byte and a 12-bit address never reach 65536 (R127). -/
theorem toNat_reg16_add_addr16 (s : State) (r : Reg) (nnn : BitVec 12) :
    (s.reg16 r + addr16 nnn).toNat = (s.reg r).toNat + nnn.toNat := by
  have hr := (s.reg r).isLt
  have hn := nnn.isLt
  simp only [State.reg16, BitVec.toNat_add, addr16_toNat, BitVec.toNat_setWidth]
  omega

/-- Settles O14: each jump sets the pc alone. -/
theorem jumpsSetThePc : Obligations.JumpsSetThePc := by
  refine ⟨fun op ht => ?_, fun op ht => ?_, fun s nnn => ?_, fun s nnn => ?_, fetch_error⟩
  · exact decodeWord_of_encode_eq (i := .jp _) (wordA_of_top ht)
  · exact decodeWord_of_encode_eq (i := .jpV0 _) (wordA_of_top ht)
  · exact ⟨_, rfl, addr16_toNat nnn, onlyPc_setPc s _⟩
  · exact ⟨_, rfl, toNat_reg16_add_addr16 s reg0 nnn, onlyPc_setPc s _⟩

/-- A skip on a test that says whether `p` holds is a skip on `p`. -/
theorem skipsIf_skipIf (s : State) {b : Bool} {p : Prop} (h : b = true ↔ p) : SkipsIf p s (s.skipIf b) := by
  refine ⟨fun hp => ?_, fun hp => ?_, ?_⟩
  · rw [h.mpr hp, State.skipIf_true, State.setPc_pc, BitVec.toNat_add]
    rfl
  · rw [Bool.eq_false_iff.mpr (mt h.mp hp), State.skipIf_false]
  · rw [State.skipIf_eq]
    exact onlyPc_setPc s _

/-- Settles O18: each instruction is `skipIf` on the test of its condition. -/
theorem skipsCompareRegisters : Obligations.SkipsCompareRegisters := by
  refine ⟨fun op ht => ?_, fun op ht => ?_, fun op ht hn => ?_, fun op ht hn => ?_, fun op ht hn => ?_,
    fun s x nn => ?_, fun s x nn => ?_, fun s x y => ?_, fun s x y => ?_, fetch_error⟩
  · exact decodeWord_of_encode_eq (i := .seImm _ _) (wordRI_of_top ht)
  · exact decodeWord_of_encode_eq (i := .sneImm _ _) (wordRI_of_top ht)
  · exact decodeWord_of_encode_eq (i := .seReg _ _) (wordRRN_of_fn ht hn)
  · exact decodeWord_of_encode_eq (i := .sneReg _ _) (wordRRN_of_fn ht hn)
  · obtain ht | ht := ht
    · exact ⟨.five, decodeWord_of_inClass ⟨ht, hn⟩⟩
    · exact ⟨.nine, decodeWord_of_inClass ⟨ht, hn⟩⟩
  · exact ⟨_, rfl, skipsIf_skipIf s beq_iff_eq⟩
  · exact ⟨_, rfl, skipsIf_skipIf s bne_iff_ne⟩
  · exact ⟨_, rfl, skipsIf_skipIf s beq_iff_eq⟩
  · exact ⟨_, rfl, skipsIf_skipIf s bne_iff_ne⟩

end Sys2Proof.Machine
end

section
/-!
PROOFS. The statements about the register, arithmetic, logic, shift and random instructions (42_alu): each
instruction is one write of `x[X]`, or the flag and then `x[X]`; what these two updates leave is said once.
-/

namespace Sys2Proof.Machine

/-! ### What the two updates leave -/

section Updates
variable (s : State) (r : Reg) {v : Byte}

theorem onlyRegs_setReg (v : Byte) : OnlyRegs s (s.setReg r v) := ⟨rfl, fun _ => rfl⟩

theorem sameRegsExcept_setReg (v : Byte) : SameRegsExcept [r] s (s.setReg r v) :=
  fun _ hq => s.reg_setReg_other v (List.ne_of_not_mem_cons hq)

theorem writesReg_setReg {n : Nat} (hv : v.toNat = n) : WritesReg r n s (s.setReg r v) := by
  refine ⟨?_, sameRegsExcept_setReg s r v, onlyRegs_setReg s r v⟩
  rw [State.reg_setReg_self, hv]

/-- One register write, bit by bit. -/
theorem setReg_next_bits {bit : Nat → Bool} (hv : ∀ k, v.getLsbD k = bit k) :
    ∃ t, (.next (s.setReg r v) : Result) = .next t ∧ (∀ k, (t.reg r).getLsbD k = bit k) ∧
      SameRegsExcept [r] s t ∧ OnlyRegs s t := by
  refine ⟨_, rfl, fun k => ?_, sameRegsExcept_setReg s r v, onlyRegs_setReg s r v⟩
  rw [State.reg_setReg_self, hv]

/-- The flag is written first, so that it survives exactly where the result goes to another register (D7). -/
theorem writesRegAndFlag_setFlagThenReg {b : Bool} {n : Int} {flag : Prop} (hv : (v.toNat : Int) = n)
    (hb : b = true ↔ flag) : WritesRegAndFlag r n flag s (s.setFlagThenReg b r v) := by
  refine ⟨?_, fun hr => ?_, fun q hq => ?_, rfl, fun _ => rfl⟩
  · rw [State.setFlagThenReg_eq, State.reg_setReg_self, hv]
  · rw [State.setFlagThenReg_eq, State.reg_setReg_other _ _ hr.symm, State.reg_setReg_self]
    exact ⟨fun h => by rw [hb.mpr h, bitByte_true],
      fun h => by rw [Bool.eq_false_iff.mpr (mt hb.mp h), bitByte_false]⟩
  · obtain ⟨hqr, hqf⟩ : q ≠ r ∧ q ≠ regF := by simpa using hq
    rw [State.setFlagThenReg_eq, State.reg_setReg_other _ _ hqr, State.reg_setReg_other _ _ hqf]

end Updates

/-! ### Results and flags as numbers -/

section Numbers
variable (a b : Byte)

theorem intCast_toNat_add : ((a + b).toNat : Int) = ((a.toNat : Int) + b.toNat) % 256 := by
  rw [BitVec.toNat_add]
  rfl

theorem intCast_toNat_sub : ((a - b).toNat : Int) = ((a.toNat : Int) - b.toNat) % 256 := by
  have hb := b.isLt
  rw [BitVec.toNat_sub]
  omega

theorem toNat_shiftRight_one : (b >>> 1).toNat = b.toNat / 2 := by
  rw [BitVec.toNat_ushiftRight, Nat.shiftRight_eq_div_pow, pow_one]

theorem toNat_shiftLeft_one : (b <<< 1).toNat = b.toNat * 2 % 256 := by
  rw [BitVec.toNat_shiftLeft, Nat.shiftLeft_eq, pow_one]

theorem carryFlag_iff : carryFlag a b = true ↔ a.toNat + b.toNat > 255 := decide_eq_true_iff

theorem subFlag_iff : subFlag a b = true ↔ a.toNat > b.toNat := decide_eq_true_iff

theorem subnFlag_iff : subnFlag a b = true ↔ a.toNat < b.toNat := decide_eq_true_iff

theorem shrFlag_iff : shrFlag b = true ↔ b.toNat % 2 = 1 := by
  rw [shrFlag, BitVec.getLsbD, Nat.testBit_zero, decide_eq_true_iff]

theorem shlFlag_iff : shlFlag b = true ↔ b.toNat / 128 = 1 := by
  have hb := b.isLt
  rw [shlFlag, BitVec.getLsbD, Nat.testBit_eq_decide_div_mod_eq, decide_eq_true_iff]
  omega

end Numbers

/-! ### The five instructions that write the flag -/

section FlagWriters
variable (s : State) (x y : Reg)

theorem exec_addReg_writes : ∃ t, exec (.addReg x y) s = .next t ∧
    WritesRegAndFlag x ((((s.reg x).toNat : Int) + (s.reg y).toNat) % 256)
      ((s.reg x).toNat + (s.reg y).toNat > 255) s t :=
  ⟨_, rfl, writesRegAndFlag_setFlagThenReg s x (intCast_toNat_add _ _) (carryFlag_iff _ _)⟩

theorem exec_sub_writes : ∃ t, exec (.sub x y) s = .next t ∧
    WritesRegAndFlag x ((((s.reg x).toNat : Int) - (s.reg y).toNat) % 256)
      ((s.reg x).toNat > (s.reg y).toNat) s t :=
  ⟨_, rfl, writesRegAndFlag_setFlagThenReg s x (intCast_toNat_sub _ _) (subFlag_iff _ _)⟩

theorem exec_subn_writes : ∃ t, exec (.subn x y) s = .next t ∧
    WritesRegAndFlag x ((((s.reg y).toNat : Int) - (s.reg x).toNat) % 256)
      ((s.reg x).toNat < (s.reg y).toNat) s t :=
  ⟨_, rfl, writesRegAndFlag_setFlagThenReg s x (intCast_toNat_sub _ _) (subnFlag_iff _ _)⟩

theorem exec_shr_writes : ∃ t, exec (.shr x y) s = .next t ∧
    WritesRegAndFlag x ((s.reg y).toNat / 2 : Nat) ((s.reg y).toNat % 2 = 1) s t :=
  ⟨_, rfl, writesRegAndFlag_setFlagThenReg s x (congrArg _ (toNat_shiftRight_one _)) (shrFlag_iff _)⟩

theorem exec_shl_writes : ∃ t, exec (.shl x y) s = .next t ∧
    WritesRegAndFlag x ((s.reg y).toNat * 2 % 256 : Nat) ((s.reg y).toNat / 128 = 1) s t :=
  ⟨_, rfl, writesRegAndFlag_setFlagThenReg s x (congrArg _ (toNat_shiftLeft_one _)) (shlFlag_iff _)⟩

end FlagWriters

/-! ### The table of aliasing (R153)

A column with X ≠ F has the result and the flag, whatever Y is; a column with X = F has the result alone. -/

section Columns
variable {res : Result} {r : Reg} {n : Int} {flag : Prop} {s : State}

theorem result_of_writes (h : ∃ t, res = .next t ∧ WritesRegAndFlag r n flag s t) :
    ∃ t, res = .next t ∧ ((t.reg r).toNat : Int) = n :=
  h.imp fun _ ⟨ht, hn, _⟩ => ⟨ht, hn⟩

/-- The flag as the number `k` that the column gives for it. -/
theorem result_and_flag_of_writes [Decidable flag] (h : ∃ t, res = .next t ∧ WritesRegAndFlag r n flag s t)
    (hr : r ≠ regF) {k : Nat} (hk : (if flag then 1 else 0) = k) :
    ∃ t, res = .next t ∧ ((t.reg r).toNat : Int) = n ∧ (t.reg regF).toNat = k := by
  obtain ⟨t, ht, hn, hflag, -⟩ := h
  obtain ⟨hset, hclear⟩ := hflag hr
  refine ⟨t, ht, hn, ?_⟩
  subst hk
  split_ifs with h
  · rw [hset h]; rfl
  · rw [hclear h]; rfl

end Columns

theorem ite_mod_two (n : Nat) : (if n % 2 = 1 then 1 else 0) = n % 2 := by
  split_ifs <;> omega

theorem ite_top_bit (b : Byte) : (if b.toNat / 128 = 1 then 1 else 0) = b.toNat / 128 := by
  have hb := b.isLt
  split_ifs <;> omega

/-- Settles O12: the columns with X ≠ F are the result and the flag of the instruction, at Y = q and at Y = F; the
columns with X = F are its result, at Y = r and at Y = F. -/
theorem flagRegisterAliasing : Obligations.FlagRegisterAliasing := by
  intro s r q hr _ f a b
  have hadd (y : Reg) := result_and_flag_of_writes (exec_addReg_writes s r y) hr rfl
  have hsub (y : Reg) := result_and_flag_of_writes (exec_sub_writes s r y) hr rfl
  have hshr (y : Reg) := result_and_flag_of_writes (exec_shr_writes s r y) hr (ite_mod_two _)
  have hsubn (y : Reg) := result_and_flag_of_writes (exec_subn_writes s r y) hr rfl
  have hshl (y : Reg) := result_and_flag_of_writes (exec_shl_writes s r y) hr (ite_top_bit _)
  have haddF (y : Reg) := result_of_writes (exec_addReg_writes s regF y)
  have hshrF (y : Reg) := result_of_writes (exec_shr_writes s regF y)
  have hshlF (y : Reg) := result_of_writes (exec_shl_writes s regF y)
  refine ⟨mod_cast hadd q, hsub q, mod_cast hshr q, hsubn q, mod_cast hshl q,
    mod_cast hadd regF, hsub regF, mod_cast hshr regF, hsubn regF, mod_cast hshl regF,
    mod_cast haddF r, result_of_writes (exec_sub_writes s regF r), mod_cast hshrF r,
    result_of_writes (exec_subn_writes s regF r), mod_cast hshlF r,
    ?_, ⟨_, rfl, ?_⟩, mod_cast hshrF regF, ⟨_, rfl, ?_⟩, mod_cast hshlF regF⟩
  · rw [two_mul]
    exact mod_cast haddF regF
  · exact (State.reg_setReg_self ..).trans (BitVec.sub_self _)
  · exact (State.reg_setReg_self ..).trans (BitVec.sub_self _)

/-! ### The instructions one by one -/

/-- Settles O6: each instruction is one register write. -/
theorem loadImmediateAndCopy : Obligations.LoadImmediateAndCopy := by
  refine ⟨fun op ht => ?_, fun op ht hn => ?_, fun s x nn => ?_, fun s x y => ?_⟩
  · exact decodeWord_of_encode_eq (i := .ldImm _ _) (wordRI_of_top ht)
  · exact decodeWord_of_encode_eq (i := .ldReg _ _) (wordRRN_of_fn ht hn)
  · exact ⟨_, rfl, writesReg_setReg s x rfl⟩
  · exact ⟨_, rfl, writesReg_setReg s x rfl⟩

/-- Settles O7: the sum of two bytes is the sum modulo 256. -/
theorem addImmediateWraps : Obligations.AddImmediateWraps := by
  refine ⟨fun op ht => ?_, fun s x nn => ?_⟩
  · exact decodeWord_of_encode_eq (i := .addImm _ _) (wordRI_of_top ht)
  · exact ⟨_, rfl, writesReg_setReg s x (BitVec.toNat_add _ _)⟩

/-- Settles O8: each instruction is one register write of a bitwise operation. -/
theorem logicLeavesTheFlag : Obligations.LogicLeavesTheFlag := by
  refine ⟨fun op ht hn => ?_, fun op ht hn => ?_, fun op ht hn => ?_, fun s x y => ?_, fun s x y => ?_,
    fun s x y => ?_⟩
  · exact decodeWord_of_encode_eq (i := .orReg _ _) (wordRRN_of_fn ht hn)
  · exact decodeWord_of_encode_eq (i := .andReg _ _) (wordRRN_of_fn ht hn)
  · exact decodeWord_of_encode_eq (i := .xorReg _ _) (wordRRN_of_fn ht hn)
  · exact setReg_next_bits s x fun _ => BitVec.getLsbD_or
  · exact setReg_next_bits s x fun _ => BitVec.getLsbD_and
  · exact setReg_next_bits s x fun _ => BitVec.getLsbD_xor

/-- Settles O9: the carry and then the sum. -/
theorem addRegistersWithCarry : Obligations.AddRegistersWithCarry := by
  refine ⟨fun op ht hn => ?_, exec_addReg_writes⟩
  exact decodeWord_of_encode_eq (i := .addReg _ _) (wordRRN_of_fn ht hn)

/-- Settles O10: the strict comparison and then the difference, one way round and the other. -/
theorem subtractWithStrictFlag : Obligations.SubtractWithStrictFlag := by
  refine ⟨fun op ht hn => ?_, fun op ht hn => ?_, exec_sub_writes, exec_subn_writes⟩
  · exact decodeWord_of_encode_eq (i := .sub _ _) (wordRRN_of_fn ht hn)
  · exact decodeWord_of_encode_eq (i := .subn _ _) (wordRRN_of_fn ht hn)

/-- Settles O11: the bit shifted out of `x[Y]` and then the rest of it. -/
theorem shiftsReadYWriteX : Obligations.ShiftsReadYWriteX := by
  refine ⟨fun op ht hn => ?_, fun op ht hn => ?_, exec_shr_writes, exec_shl_writes⟩
  · exact decodeWord_of_encode_eq (i := .shr _ _) (wordRRN_of_fn ht hn)
  · exact decodeWord_of_encode_eq (i := .shl _ _) (wordRRN_of_fn ht hn)

/-- Settles O13: one register write of the random byte under the mask, which has no bit outside the mask. -/
theorem randomByteIsMasked : Obligations.RandomByteIsMasked := by
  refine ⟨fun op ht => ?_, fun s => rfl, fun s x nn => ?_⟩
  · exact decodeWord_of_encode_eq (i := .rnd _ _) (wordRI_of_top ht)
  · refine ⟨_, rfl, fun k => ?_, ?_, sameRegsExcept_setReg s x _, onlyRegs_setReg s x _⟩
    · rw [State.reg_setReg_self, BitVec.getLsbD_and]
    · rw [State.reg_setReg_self, BitVec.and_assoc, BitVec.and_not_self]
      exact BitVec.and_zero

end Sys2Proof.Machine
end

section
/-!
PROOFS. The statements about the index register and memory (43_index_memory): one write of the index register, a
store of bytes from `I` up, or a load of registers from there; a transfer that would leave memory is the report
alone (20_memory R56).
-/

namespace Sys2Proof.Machine

theorem reportsOnly_report (e : StepError) (s : State) : ReportsOnly e s (s.report e) := ⟨rfl, fun _ => rfl⟩

/-! ### The index register -/

theorem onlyIndex_setIndex (s : State) (v : Word) : OnlyIndex s (s.setIndex v) := ⟨rfl, fun _ => rfl⟩

/-- A register keeps its value when zero-extended (R171). -/
@[simp] theorem State.reg16_toNat (s : State) (r : Reg) : (s.reg16 r).toNat = (s.reg r).toNat :=
  BitVec.toNat_setWidth_of_le (by decide)

/-- The largest offset is 5 * 255, which takes the font base 0xFB04 to 0xFFFF (R172). -/
theorem State.glyphAddr_toNat {s : State} (x : Reg) (h : s.cfg.fontBase.toNat ≤ 0xFB04) :
    (s.glyphAddr x).toNat =
      s.cfg.fontBase.toNat + 5 * if s.cfg.fx29MaskNibble then (s.reg x).toNat % 16 else (s.reg x).toNat := by
  have hx := (s.reg x).isLt
  simp only [State.glyphAddr, Config.glyphBytes, BitVec.toNat_ofNat]
  refine Nat.mod_eq_of_lt ?_
  split_ifs <;> omega

/-- Settles O24: each instruction sets the index register alone. -/
theorem indexLoadAndAdd : Obligations.IndexLoadAndAdd := by
  refine ⟨fun op ht => ?_, fun op ht hn => ?_, fun s nnn => ?_, fun s x => ?_⟩
  · exact decodeWord_of_encode_eq (i := .ldI _) (wordA_of_top ht)
  · exact decodeWord_of_encode_eq (i := .addI _) (wordRI_of_fn ht hn)
  · exact ⟨_, rfl, addr16_toNat nnn, onlyIndex_setIndex s _⟩
  · refine ⟨_, rfl, ?_, onlyIndex_setIndex s _⟩
    rw [State.setIndex_index, BitVec.toNat_add, State.reg16_toNat]

/-- Settles O25: one write of the index register, exact where the sum fits it. -/
theorem glyphAddressFromRegister : Obligations.GlyphAddressFromRegister := by
  refine ⟨fun op ht hn => ?_, fun s x => ?_⟩
  · exact decodeWord_of_encode_eq (i := .ldF _) (wordRI_of_fn ht hn)
  · exact ⟨_, rfl, onlyIndex_setIndex s _, State.glyphAddr_toNat x⟩

/-! ### Stores -/

section Stores
variable {s : State} {vs : List Byte} (x : Reg)

/-- Bytes stored from `I` up are read back there, and no other byte changes. -/
theorem settle_writeBytes_stores (h : s.index.toNat + vs.length ≤ 4096) :
    ∃ t, settle s (writeBytes s.base vs s) = .next t ∧
      (∀ k (hk : k < vs.length), t.peek (s.index.toNat + k) = vs[k]) ∧
      OnlyBytes s.index.toNat vs.length s t := by
  have hfit : vs.length = 0 ∨ s.base + vs.length - 1 ≤ 0xFFF := .inr (by simp only [State.base]; omega)
  exact ⟨s.pokes s.base vs, by rw [writeBytes_ok s hfit, settle_ok], fun k hk => s.peek_pokes_inside vs hk h,
    s.pokes_eq _ vs, fun a ha => s.peek_pokes_outside vs ha⟩

theorem settle_writeBytes_reports (hne : vs ≠ []) (h : s.index.toNat + vs.length > 4096) :
    ∃ t, settle s (writeBytes s.base vs s) = .next t ∧ ReportsOnly (.addressError s.index.toNat) s t := by
  have hout : ¬(vs.length = 0 ∨ s.base + vs.length - 1 ≤ 0xFFF) := by
    have := List.length_pos_iff.mpr hne
    simp only [State.base]; omega
  exact ⟨_, by rw [writeBytes_error s hout, settle_error]; rfl, reportsOnly_report _ s⟩

@[simp] theorem State.length_regsUpTo : (s.regsUpTo x).length = x.val + 1 := by
  simp [State.regsUpTo]

theorem State.getElem_regsUpTo (i : Reg) (hi : i.val < (s.regsUpTo x).length) :
    (s.regsUpTo x)[i.val] = s.reg i := by
  simp [State.regsUpTo, State.reg, Vector.get_eq_getElem]

theorem exec_stRegs_stores (h : s.index.toNat + x.val ≤ 0xFFF) : ∃ t, exec (.stRegs x) s = .next t ∧
    (∀ i : Reg, i ≤ x → t.peek (s.index.toNat + i.val) = s.reg i) ∧
    OnlyBytes s.index.toNat (x.val + 1) s t := by
  have hlen := s.length_regsUpTo x
  obtain ⟨t, ht, hin, hframe⟩ := settle_writeBytes_stores (s := s) (vs := s.regsUpTo x) (by omega)
  refine ⟨t, ht, fun i hi => ?_, hlen ▸ hframe⟩
  have hk : i.val < (s.regsUpTo x).length := hlen ▸ Nat.lt_succ_of_le hi
  rw [hin i.val hk, State.getElem_regsUpTo]

end Stores

/-- Settles O26: the three digits are stored from `I` up, each less than 10. -/
theorem storeDecimalDigits : Obligations.StoreDecimalDigits := by
  refine ⟨fun op ht hn => ?_, fun s x h => ?_, fun s x h => ?_⟩
  · exact decodeWord_of_encode_eq (i := .ldB _) (wordRI_of_fn ht hn)
  · have hx := (s.reg x).isLt
    obtain ⟨t, ht, hin, hframe⟩ := settle_writeBytes_stores (vs := bcdDigits (s.reg x)) (Nat.succ_le_succ h)
    refine ⟨t, ht, ?_, ?_, ?_, hframe⟩
    · exact (congrArg _ (hin 0 (by decide : 0 < 3))).trans (Nat.mod_eq_of_lt (by omega))
    · exact (congrArg _ (hin 1 (by decide : 1 < 3))).trans (Nat.mod_eq_of_lt (by omega))
    · exact (congrArg _ (hin 2 (by decide : 2 < 3))).trans (Nat.mod_eq_of_lt (by omega))
  · exact settle_writeBytes_reports (List.cons_ne_nil _ _) (Nat.succ_lt_succ h)

/-- Settles O27: the bytes stored are the registers, `x[0]` first. -/
theorem storeRegisterRange : Obligations.StoreRegisterRange := by
  refine ⟨fun op ht hn => ?_, fun s => exec_stRegs_stores, fun s x h => ?_⟩
  · exact decodeWord_of_encode_eq (i := .stRegs _) (wordRI_of_fn ht hn)
  · have hlen := s.length_regsUpTo x
    exact settle_writeBytes_reports (List.ne_nil_of_length_pos (by omega)) (by omega)

/-! ### Loads -/

section Loads
variable {s : State} (x : Reg)

theorem exec_ldRegs_of_le (h : s.index.toNat + x.val ≤ 0xFFF) : exec (.ldRegs x) s = .next { s with
    x := loadRegs s.x 0 ((List.range (x.val + 1)).map fun i => s.peek (s.index.toNat + i)) } := by
  rw [exec, execLdRegs, readBytes_ok s (.inr h)]
  rfl

theorem exec_ldRegs_loads (h : s.index.toNat + x.val ≤ 0xFFF) : ∃ t, exec (.ldRegs x) s = .next t ∧
    (∀ i : Reg, i ≤ x → t.reg i = s.peek (s.index.toNat + i.val)) ∧
    (∀ i : Reg, x < i → t.reg i = s.reg i) ∧ OnlyRegs s t := by
  refine ⟨_, exec_ldRegs_of_le x h, fun i hi => ?_, fun i hi => ?_, rfl, fun _ => rfl⟩
  · refine (loadRegs_inside s.x _ i i.val ?_ (Nat.zero_add _).symm).trans ?_
    · simpa using Nat.lt_succ_of_le hi
    · rw [List.getElem_map, List.getElem_range]
  · refine loadRegs_outside s.x _ i (.inr ?_)
    simpa using Nat.succ_le_of_lt hi

theorem exec_ldRegs_reports (h : s.index.toNat + x.val > 0xFFF) : ∃ t, exec (.ldRegs x) s = .next t ∧
    ReportsOnly (.addressError s.index.toNat) s t := by
  have hout : ¬(x.val + 1 = 0 ∨ s.base + (x.val + 1) - 1 ≤ 0xFFF) := by simp only [State.base]; omega
  exact ⟨_, by rw [exec, execLdRegs, readBytes_error s hout]; rfl, reportsOnly_report _ s⟩

end Loads

/-- Settles O28: the store leaves `I` where it was, so that the load reads the bytes that the store wrote. -/
theorem loadRegisterRange : Obligations.LoadRegisterRange := by
  refine ⟨fun op ht hn => ?_, fun s => exec_ldRegs_loads, fun s => exec_ldRegs_reports, fun s x h => ?_⟩
  · exact decodeWord_of_encode_eq (i := .ldRegs _) (wordRI_of_fn ht hn)
  · obtain ⟨t, ht, hstored, hframe, -⟩ := exec_stRegs_stores x h
    have hindex : t.index = s.index := by rw [hframe]
    rw [← hindex] at h hstored
    refine ⟨t, ht, fun regs => ?_⟩
    obtain ⟨u, hu, hloaded, -⟩ := exec_ldRegs_loads (s := { t with x := regs }) x h
    exact ⟨u, hu, fun i hi => (hloaded i hi).trans (hstored i hi)⟩

end Sys2Proof.Machine
end

section
/-!
PROOFS. The statements about the display (44_display). DXYN's sprite is drawn on a canvas (`State.spriteCanvas`): the
laws of the drawing loops say which pixels it toggles and when it collides, and both are read as `Covered`.
-/

namespace Sys2Proof.Machine

/-! ### The clear -/

/-- Settles O30: the buffer left is the blank one. -/
theorem clearScreenClearsEveryPixel : Obligations.ClearScreenClearsEveryPixel := by
  refine ⟨decodeWord_encode .cls, fun s => ?_⟩
  refine ⟨_, rfl, Pixels.sized_blank _ _, pixelAt_blank _ _, fun hc => ?_, fun hc => ?_, rfl, fun _ => rfl⟩
  · rw [hc, Bool.or_true]
  · rw [hc, Bool.or_false]

/-! ### The sprite on its canvas -/

/-- A pixel changes exactly where it is toggled. -/
theorem xor_ne_left_iff : ∀ a b : Bool, (a ^^ b) ≠ a ↔ b = true := by decide

section Sprite
variable (s : State) (x y : Reg) (n : BitVec 4)

/-- The sprite bytes of the rows that a DXYN draws (R191). -/
def State.spriteBytes : List Byte := (List.range (rowsDrawn s y n)).map fun i => s.peek (s.index.toNat + i)

/-- The buffer with the sprite of a DXYN drawn on it, and whether it collided. -/
def State.spriteCanvas : Canvas :=
  drawBytes s.cfg.displayW s.cfg.spriteMsbLeft (s.originCol x) (s.originRow y) (s.spriteBytes y n) ⟨s.pix, false⟩

/-- What a DXYN whose sprite lies in memory leaves. -/
def State.drawn : State :=
  { s with pix := (s.spriteCanvas x y n).pix, draw := true }.setFlag (s.spriteCanvas x y n).hit

variable {s y n} in
theorem exec_drw_of_inMemory (h : SpriteInMemory s y n) : exec (.drw x y n) s = .next (s.drawn x y n) := by
  simp only [exec, execDrw, readSprite_ok h]
  rfl

variable {s y n} in
theorem exec_drw_reports (h : ¬SpriteInMemory s y n) :
    exec (.drw x y n) s = .next (s.report (.addressError s.index.toNat)) := by
  simp only [exec, execDrw, readSprite_error h]
  rfl

theorem State.length_spriteBytes : (s.spriteBytes y n).length = rowsDrawn s y n := by
  simp [State.spriteBytes]

/-- The rows drawn end at the bottom of the grid; a grid without rows has none, wherever the origin lies. -/
theorem State.spriteBytes_fit :
    s.spriteBytes y n = [] ∨ s.originRow y + (s.spriteBytes y n).length ≤ s.cfg.displayH := by
  rw [← List.length_eq_zero_iff, State.length_spriteBytes, rowsDrawn, State.originRow]
  omega

theorem bitOfColumn_eq (b : Byte) (j : Nat) : bitOfColumn s b j = spriteBit s.cfg.spriteMsbLeft b j := by
  unfold bitOfColumn spriteBit
  split_ifs <;> rfl

variable {s y n} in
theorem State.getD_spriteBytes {i : Nat} (hi : i < (s.spriteBytes y n).length) :
    (s.spriteBytes y n).getD i 0 = s.peek (s.index.toNat + i) := by
  rw [List.getD_eq_getElem _ _ hi]
  simp [State.spriteBytes]

/-- The covered pixels in the terms of the drawing loops. -/
theorem covered_iff (r c : Nat) : Covered s x y n r c ↔
    (s.originRow y ≤ r ∧ r < s.originRow y + (s.spriteBytes y n).length ∧
      s.originCol x ≤ c ∧ c < s.originCol x + 8 ∧ c < s.cfg.displayW) ∧
    spriteBit s.cfg.spriteMsbLeft ((s.spriteBytes y n).getD (r - s.originRow y) 0) (c - s.originCol x) = true := by
  change (s.originRow y ≤ r ∧ r < s.originRow y + rowsDrawn s y n ∧ s.originCol x ≤ c ∧
    c < min (s.originCol x + 8) s.cfg.displayW ∧ bitOfColumn s _ (c - s.originCol x) = true) ↔ _
  rw [← State.length_spriteBytes, lt_min_iff, bitOfColumn_eq]
  constructor
  · rintro ⟨htop, hbottom, hleft, ⟨hright, hwidth⟩, hbit⟩
    rw [State.getD_spriteBytes (by omega)]
    exact ⟨⟨htop, hbottom, hleft, hright, hwidth⟩, hbit⟩
  · rintro ⟨⟨htop, hbottom, hleft, hright, hwidth⟩, hbit⟩
    rw [State.getD_spriteBytes (by omega)] at hbit
    exact ⟨htop, hbottom, hleft, ⟨hright, hwidth⟩, hbit⟩

/-- A DXYN that draws no row leaves the buffer, collides with nothing and covers nothing. -/
theorem spriteCanvas_of_no_rows (h : s.spriteBytes y n = []) :
    s.spriteCanvas x y n = ⟨s.pix, false⟩ ∧ ∀ r c, ¬Covered s x y n r c := by
  refine ⟨by rw [State.spriteCanvas, h, drawBytes], fun r c => ?_⟩
  rw [covered_iff, h]
  rintro ⟨⟨htop, hbottom, -⟩, -⟩
  exact Nat.not_lt.mpr htop hbottom

variable {s}
variable (hs : s.PixelsOk)
include hs

theorem sized_spriteCanvas : (s.spriteCanvas x y n).pix.sized s.cfg.displayW s.cfg.displayH = true :=
  sized_drawBytes _ _ _ _ hs

/-- Drawing toggles exactly the covered pixels (R191). -/
theorem pixelAt_spriteCanvas_ne_iff (r c : Nat) :
    pixelAt (s.spriteCanvas x y n).pix r c ≠ pixelAt s.pix r c ↔ Covered s x y n r c := by
  obtain hnil | hfit := s.spriteBytes_fit y n
  · obtain ⟨hcanvas, hcovered⟩ := spriteCanvas_of_no_rows s x y n hnil
    rw [hcanvas]
    exact iff_of_false (absurd rfl) (hcovered r c)
  · rw [State.spriteCanvas, pixelAt_drawBytes _ _ _ hfit (k := ⟨s.pix, false⟩) hs, xor_ne_left_iff,
      Bool.and_eq_true, decide_eq_true_iff, covered_iff]

/-- A collision is a covered pixel that was set (R191). -/
theorem hit_spriteCanvas_iff :
    (s.spriteCanvas x y n).hit = true ↔ ∃ r c, Covered s x y n r c ∧ pixelAt s.pix r c = true := by
  obtain hnil | hfit := s.spriteBytes_fit y n
  · obtain ⟨hcanvas, hcovered⟩ := spriteCanvas_of_no_rows s x y n hnil
    rw [hcanvas]
    exact iff_of_false Bool.false_ne_true fun ⟨r, c, hc, _⟩ => hcovered r c hc
  · simp only [covered_iff]
    rw [State.spriteCanvas, hit_drawBytes _ _ _ hfit (k := ⟨s.pix, false⟩) hs, or_iff_right Bool.false_ne_true]
    constructor
    · rintro ⟨i, j, hi, hj, hw, hbit, hpix⟩
      refine ⟨_, _, ⟨⟨Nat.le_add_right _ _, by omega, Nat.le_add_right _ _, by omega, hw⟩, ?_⟩, hpix⟩
      rwa [Nat.add_sub_cancel_left, Nat.add_sub_cancel_left]
    · rintro ⟨r, c, ⟨⟨htop, hbottom, hleft, hright, hwidth⟩, hbit⟩, hpix⟩
      refine ⟨r - s.originRow y, c - s.originCol x, by omega, by omega, by omega, hbit, ?_⟩
      rwa [Nat.add_sub_cancel' htop, Nat.add_sub_cancel' hleft]

end Sprite

/-! ### What DXYN leaves -/

section Drawn
variable {s : State} (x y : Reg) (n : BitVec 4)

theorem State.drawn_regF : (s.drawn x y n).reg regF = bitByte (s.spriteCanvas x y n).hit :=
  State.reg_setReg_self _ _ _

theorem onlyDisplayAndFlag_drawn : OnlyDisplayAndFlag s (s.drawn x y n) :=
  ⟨rfl, sameRegsExcept_setReg { s with pix := _, draw := true } regF _, fun _ => rfl⟩

theorem bitByte_eq_one_iff (b : Bool) : bitByte b = 1 ↔ b = true := by
  cases b <;> decide

theorem drawn_regF_eq_one_iff (hs : s.PixelsOk) : (s.drawn x y n).reg regF = 1 ↔
    ∃ r c, Covered s x y n r c ∧ pixelAt s.pix r c = true := by
  rw [State.drawn_regF, bitByte_eq_one_iff, hit_spriteCanvas_iff x y n hs]

theorem drawn_regF_eq_zero (hs : s.PixelsOk) (h : ¬∃ r c, Covered s x y n r c ∧ pixelAt s.pix r c = true) :
    (s.drawn x y n).reg regF = 0 := by
  rw [State.drawn_regF, Bool.eq_false_iff.mpr (mt (hit_spriteCanvas_iff x y n hs).mp h), bitByte_false]

end Drawn

/-- Settles O31: the canvas has the covered pixels toggled and the collision. -/
theorem drawTogglesTheCoveredPixels : Obligations.DrawTogglesTheCoveredPixels := by
  refine ⟨fun op ht => ?_, fun s x y n hs h => ?_, fun s x y n h => ?_⟩
  · exact decodeWord_of_encode_eq (i := .drw _ _ _) (wordRRN_of_top ht)
  · exact ⟨_, exec_drw_of_inMemory x h, fun r c _ _ => pixelAt_spriteCanvas_ne_iff x y n hs r c,
      (drawn_regF_eq_one_iff x y n hs).mpr, drawn_regF_eq_zero x y n hs, rfl, onlyDisplayAndFlag_drawn x y n⟩
  · exact ⟨_, exec_drw_reports x h, reportsOnly_report _ s⟩

/-! ### The same sprite again -/

/-- Two buffers of one size that agree in every pixel are the same list. -/
theorem Pixels.eq_of_pixelAt_eq {w h : Nat} {p q : Pixels} (hp : p.sized w h = true) (hq : q.sized w h = true)
    (heq : ∀ r c, pixelAt p r c = pixelAt q r c) : p = q := by
  obtain ⟨hpl, hprow⟩ := Pixels.sized_iff.mp hp
  obtain ⟨hql, hqrow⟩ := Pixels.sized_iff.mp hq
  refine List.ext_getElem (hpl.trans hql.symm) fun r hr hr' => ?_
  refine List.ext_getElem ((hprow _ (p.getElem_mem hr)).trans (hqrow _ (q.getElem_mem hr')).symm) fun c hc hc' => ?_
  have hpix := heq r c
  rwa [pixelAt, pixelAt, List.getD_eq_getElem _ _ hr, List.getD_eq_getElem _ _ hr', List.getD_eq_getElem _ _ hc,
    List.getD_eq_getElem _ _ hc'] at hpix

/-- A DXYN in `u` draws what it draws in `s`: the same bytes at the same origin on the same grid. -/
structure SameSprite (s u : State) (x y : Reg) (n : BitVec 4) : Prop where
  cfg : u.cfg = s.cfg
  index : u.index = s.index
  col : u.originCol x = s.originCol x
  row : u.originRow y = s.originRow y
  bytes : ∀ i, i < rowsDrawn s y n → u.peek (s.index.toNat + i) = s.peek (s.index.toNat + i)

namespace SameSprite
variable {s u : State} {x y : Reg} {n : BitVec 4} (h : SameSprite s u x y n)
include h

theorem rowsDrawn_eq : rowsDrawn u y n = rowsDrawn s y n := by
  change min n.toNat (u.cfg.displayH - u.originRow y) = min n.toNat (s.cfg.displayH - s.originRow y)
  rw [h.cfg, h.row]

theorem inMemory (hs : SpriteInMemory s y n) : SpriteInMemory u y n := by
  rwa [SpriteInMemory, h.rowsDrawn_eq, h.index]

theorem spriteBytes_eq : u.spriteBytes y n = s.spriteBytes y n := by
  rw [State.spriteBytes, State.spriteBytes, h.rowsDrawn_eq, h.index]
  exact List.map_congr_left fun i hi => h.bytes i (List.mem_range.mp hi)

theorem covered_iff (r c : Nat) : Covered u x y n r c ↔ Covered s x y n r c := by
  rw [Machine.covered_iff, Machine.covered_iff, h.spriteBytes_eq, h.cfg, h.col, h.row]

end SameSprite

section Twice
variable {s u : State} {x y : Reg} {n : BitVec 4}

/-- What the second DXYN starts from: the buffer that the first left, and the same sprite. -/
theorem drawn_twice (hs : s.PixelsOk) (hpix : u.pix = (s.drawn x y n).pix) (h : SameSprite s u x y n) :
    (u.drawn x y n).pix = s.pix ∧
      ((u.drawn x y n).reg regF = 1 ↔ ∃ r c, Covered s x y n r c ∧ pixelAt s.pix r c = false) := by
  have hfirst (r c : Nat) : pixelAt u.pix r c ≠ pixelAt s.pix r c ↔ Covered s x y n r c := by
    rw [hpix]
    exact pixelAt_spriteCanvas_ne_iff x y n hs r c
  have hu : u.PixelsOk := by
    rw [State.PixelsOk, h.cfg, hpix]
    exact sized_spriteCanvas x y n hs
  have hsecond (r c : Nat) : pixelAt (u.drawn x y n).pix r c ≠ pixelAt u.pix r c ↔ Covered s x y n r c :=
    (pixelAt_spriteCanvas_ne_iff x y n hu r c).trans (h.covered_iff r c)
  constructor
  · refine Pixels.eq_of_pixelAt_eq (h.cfg ▸ sized_spriteCanvas x y n hu) hs fun r c => ?_
    by_cases hc : Covered s x y n r c
    · rw [Bool.eq_not_of_ne ((hsecond r c).mpr hc), Bool.eq_not_of_ne ((hfirst r c).mpr hc), Bool.not_not]
    · exact (not_not.mp (mt (hsecond r c).mp hc)).trans (not_not.mp (mt (hfirst r c).mp hc))
  · rw [drawn_regF_eq_one_iff x y n hu]
    refine exists_congr fun r => exists_congr fun c => ?_
    rw [h.covered_iff]
    refine and_congr_right fun hc => ?_
    rw [Bool.eq_not_of_ne ((hfirst r c).mpr hc), Bool.not_eq_true']

end Twice

/-- Settles O32: both draws toggle the same pixels, so the second finds each covered pixel as the first left it. -/
theorem drawingTwiceRestoresTheBuffer : Obligations.DrawingTwiceRestoresTheBuffer := by
  intro s x y n hs h
  refine ⟨_, exec_drw_of_inMemory x h, drawn_regF_eq_one_iff x y n hs,
    fun r c _ _ => pixelAt_spriteCanvas_ne_iff x y n hs r c, fun u hpix hcfg hindex hx hy hbytes => ?_⟩
  have hsame : SameSprite s u x y n :=
    ⟨hcfg, hindex, by rwa [State.originCol, hcfg], by rwa [State.originRow, hcfg], hbytes⟩
  exact ⟨_, exec_drw_of_inMemory x (hsame.inMemory h), drawn_twice hs hpix hsame⟩

/-! ### The redraw flag -/

/-- The redraw flag alone: two runs that held the same in the other unread elements still do. -/
theorem exec_withDraw (i : Instr) (s : State) (b : Bool) :
    ∃ t b', exec i s = .next t ∧ exec i { s with draw := b } = .next { t with draw := b' } := by
  obtain ⟨t, w, ht, hw, hst, -, ⟨hrnd, hrnd'⟩, houtcome, herr⟩ :=
    exec_withUnread s { s.unread with draw := b } i fun _ _ _ => rfl
  have hwt : w = { t.unread with draw := w.draw } :=
    Unread.ext (hst.eq rfl).symm rfl (hrnd'.trans hrnd.symm) (houtcome.eq rfl).symm (herr.eq rfl).symm
  exact ⟨t, w.draw, ht, hw.trans (congrArg (Host.Outcome.next ∘ t.withUnread) hwt)⟩

/-- Settles O50: the phases before the instruction do not read the redraw flag either. -/
theorem drawIsNeverRead : Obligations.DrawIsNeverRead := by
  intro s b
  by_cases hpc : s.pc.toNat ≤ 0xFFE
  · cases hi : fetched s with
    | none => exact ⟨_, b, step_of_not_fetched hpc hi, step_of_not_fetched (s := { s with draw := b }) hpc hi⟩
    | some i =>
      rw [step_of_fetched hi, step_of_fetched (s := { s with draw := b }) hi]
      exact exec_withDraw i (stepEntry s) b
  · have hpc := Nat.lt_of_not_le hpc
    exact ⟨_, b, step_of_fetch_error hpc, step_of_fetch_error (s := { s with draw := b }) hpc⟩

/-! ### The host's transactions -/

/-- A Step of the host is answered, whatever its inputs are. -/
theorem withReply_cycle_ne_fault (inp : HostInput) (s : State) (f : Fault) :
    withReply (cycle inp s) ≠ .fault f := by
  obtain ⟨t, ht⟩ := cycle_next inp s
  rw [ht]
  exact nofun

/-- Settles O57, a transaction at a time. -/
theorem onlyReadingNoPixelFaults : Obligations.OnlyReadingNoPixelFaults := by
  refine ⟨fun s r c h => if_neg h, fun m s f h => ?_⟩
  cases m with
  | readPixel r c =>
    refine ⟨r, c, rfl, fun hin => ?_⟩
    cases (if_pos hin).symm.trans h
  | load bytes =>
    simp only [transact] at h
    split_ifs at h
  | step inp => exact absurd h (withReply_cycle_ne_fault _ s f)
  | stepAt now keysIn rnd => exact absurd h (withReply_cycle_ne_fault _ s f)
  | reset | readDraw | clearDraw => cases h

end Sys2Proof.Machine
end

section
/-!
PROOFS. The statements about the keys and the timers (45_keys_timers): a skip on the key that `x[X]` names, the
wait for a key, and the three moves between a register and a timer.
-/

namespace Sys2Proof.Machine

/-! ### The wait for a key -/

/-- The lowest key down is the one with no key down before it. -/
theorem State.lowestKey_eq_some {s : State} {k : Fin 16} (hk : s.keyDown k = true)
    (hlow : ∀ j, j < k → s.keyDown j = false) : s.lowestKey = some k := by
  refine List.find?_eq_some_iff_getElem.mpr ⟨hk, k.val, by simp, by simp, fun j hj => ?_⟩
  rw [List.getElem_finRange, hlow _ (Fin.lt_def.mpr hj)]
  rfl

theorem exec_ldVxK_of_none (s : State) (x : Reg) (h : ∀ k, s.keyDown k = false) :
    exec (.ldVxK x) s = .next (s.setPc (s.pc - 2)) := by
  rw [exec, execLdVxK, s.lowestKey_eq_none.mpr h, State.rewind_eq]

theorem exec_ldVxK_of_lowest {s : State} (x : Reg) {k : Fin 16} (hk : s.keyDown k = true)
    (hlow : ∀ j, j < k → s.keyDown j = false) :
    exec (.ldVxK x) s = .next (s.setReg x (BitVec.ofNat 8 k.val)) := by
  rw [exec, execLdVxK, State.lowestKey_eq_some hk hlow]

/-- The number of a key fits a register. -/
theorem toNat_ofNat_key (k : Fin 16) : (BitVec.ofNat 8 k.val).toNat = k.val :=
  Nat.mod_eq_of_lt (by omega)

/-- The pc's step back as a number (R212). -/
theorem toNat_sub_two (w : Word) : (w - 2).toNat = (w.toNat + 65536 - 2) % 65536 := by
  bv_omega

/-- Settles O20: with no key down the pc goes back by 2 alone, else the lowest key is one register write. -/
theorem waitForKeyReplaysOrReads : Obligations.WaitForKeyReplaysOrReads := by
  refine ⟨fun op ht hn => ?_, fun s x h => ?_, fun s x k hk hlow => ?_⟩
  · exact decodeWord_of_encode_eq (i := .ldVxK _) (wordRI_of_fn ht hn)
  · exact ⟨_, exec_ldVxK_of_none s x h, toNat_sub_two s.pc, onlyPc_setPc s _⟩
  · exact ⟨_, exec_ldVxK_of_lowest x hk hlow, writesReg_setReg s x (toNat_ofNat_key k)⟩

/-! ### Skips on a key -/

section KeySkips
variable {s : State} {x : Reg} (f : Fin 16 → Bool)

/-- Where `x[X]` names the key `k`, the instruction skips on its test of `k`. -/
theorem settle_keyNumber_skips {k : Fin 16} (hk : (s.reg x).toNat = k.val) {p : Prop} (h : f k = true ↔ p) :
    ∃ t, settle s ((s.keyNumber x).map fun k => s.skipIf (f k)) = .next t ∧ SkipsIf p s t := by
  have hnum : s.keyNumber x = .ok k := (State.keyNumber_ok (hk ▸ k.isLt)).trans (congrArg _ (Fin.ext hk))
  exact ⟨s.skipIf (f k), by rw [hnum]; rfl, skipsIf_skipIf s h⟩

/-- Where `x[X]` names no key, the instruction reports that and does not skip. -/
theorem settle_keyNumber_reports (h : (s.reg x).toNat > 15) :
    ∃ t, settle s ((s.keyNumber x).map fun k => s.skipIf (f k)) = .next t ∧
      ReportsOnly (.keyIndexError (s.reg x)) s t :=
  ⟨_, by rw [State.keyNumber_error (by omega)]; rfl, reportsOnly_report _ s⟩

end KeySkips

/-- Settles O19: EX9E skips on the key itself, EXA1 on its negation. -/
theorem skipsTestKeys : Obligations.SkipsTestKeys := by
  refine ⟨fun op ht hn => ?_, fun op ht hn => ?_, fun s x k hk => ⟨?_, ?_⟩, fun s x h => ⟨?_, ?_⟩⟩
  · exact decodeWord_of_encode_eq (i := .skp _) (wordRI_of_fn ht hn)
  · exact decodeWord_of_encode_eq (i := .sknp _) (wordRI_of_fn ht hn)
  · exact settle_keyNumber_skips s.keyDown hk Iff.rfl
  · exact settle_keyNumber_skips (fun k => !s.keyDown k) hk (Iff.of_eq (Bool.not_eq_true' _))
  · exact settle_keyNumber_reports s.keyDown h
  · exact settle_keyNumber_reports (fun k => !s.keyDown k) h

/-! ### The timer instructions -/

/-- Settles O21: each instruction is one write, of a register or of a timer, and a Step's ticks come before it. -/
theorem timerInstructionsMoveOneByte : Obligations.TimerInstructionsMoveOneByte := by
  refine ⟨fun op ht hn => ?_, fun op ht hn => ?_, fun op ht hn => ?_, fun s x => ?_, fun s => ?_, fun s x => ?_,
    fun s x => ?_⟩
  · exact decodeWord_of_encode_eq (i := .ldVxDt _) (wordRI_of_fn ht hn)
  · exact decodeWord_of_encode_eq (i := .ldDtVx _) (wordRI_of_fn ht hn)
  · exact decodeWord_of_encode_eq (i := .ldStVx _) (wordRI_of_fn ht hn)
  · exact ⟨_, rfl, writesReg_setReg s x rfl⟩
  · exact decay_toNat s.dt s.input.ticks
  · exact ⟨s.setDt (s.reg x), rfl, rfl, rfl, fun _ => rfl⟩
  · exact ⟨s.setSt (s.reg x), rfl, rfl, rfl, fun _ => rfl⟩

end Sys2Proof.Machine
end

section
/-!
PROOFS. The statements about the host interface (48_host_interface): the two answers of Load, the host's reads, and
what a Step takes over from the report of the Step before.
-/

namespace Sys2Proof.Machine

/-! ### Load -/

section Load
variable {s : State} {bytes : List Byte}

theorem hostLoad_of_fits (h : bytes.length ≤ 3584) :
    hostLoad bytes s = (.loadOk, { s.pokes 0x200 bytes with loadOpen := false }) :=
  if_neg (by simp only [Config.progBase, Config.memSize]; omega)

theorem hostLoad_of_too_large (h : bytes.length > 3584) : hostLoad bytes s = (.loadTooLarge, s) :=
  if_pos (by simp only [Config.progBase, Config.memSize]; omega)

/-- While Load is a move, its answer is `hostLoad`'s. -/
theorem transact_load_of_open (h : s.loadOpen = true) :
    transact (.load bytes) s = .next (hostLoad bytes s) := if_pos h

theorem transact_load_of_closed (h : s.loadOpen = false) :
    transact (.load bytes) s = .refused .loadNotOffered := if_neg (by simp [h])

end Load

/-- Settles O55: a program that fits is a run of pokes from 0x200 up, and both it and a Step close Load. -/
theorem loadPlacesTheProgram : Obligations.LoadPlacesTheProgram := by
  refine ⟨fun s bytes hopen hfit => ?_, fun s bytes hopen hlong => ?_, fun s bytes hclosed => ?_, fun s t h => ?_⟩
  · refine ⟨{ s.pokes 0x200 bytes with loadOpen := false }, ?_, fun k hk => ?_, fun a ha => ?_, ?_⟩
    · rw [transact_load_of_open hopen, hostLoad_of_fits hfit]
    · exact s.peek_pokes_inside bytes hk (by omega)
    · exact s.peek_pokes_outside bytes ha
    · exact congrArg ({ · with loadOpen := false }) (s.pokes_eq 0x200 bytes)
  · rw [transact_load_of_open hopen, hostLoad_of_too_large hlong]
  · exact transact_load_of_closed hclosed
  · obtain ⟨-, -, -, -, hload, -, -⟩ := (stepEffect_of_step h).inputs
    exact hload

/-! ### Reads and ClearDraw -/

/-- Settles O56: inside the grid ReadPixel is not the fault, and the other two have one answer in every state. -/
theorem hostReadsAndClears : Obligations.HostReadsAndClears :=
  ⟨fun _ _ _ hr hc => if_pos ⟨hr, hc⟩, fun _ => rfl, fun _ => rfl⟩

/-! ### The report of earlier Steps -/

/-- The fault record alone: two runs that held the same in the other unread elements still do. -/
theorem exec_withErrSeen (i : Instr) (s : State) (b : Bool) :
    ∃ t b', exec i s = .next t ∧ exec i { s with errSeen := b } = .next { t with errSeen := b' } := by
  obtain ⟨t, w, ht, hw, hst, hdraw, ⟨hrnd, hrnd'⟩, houtcome, -⟩ :=
    exec_withUnread s { s.unread with errSeen := b } i fun _ _ _ => rfl
  have hwt : w = { t.unread with errSeen := w.errSeen } :=
    Unread.ext (hst.eq rfl).symm (hdraw.eq rfl).symm (hrnd'.trans hrnd.symm) (houtcome.eq rfl).symm rfl
  exact ⟨t, w.errSeen, ht, hw.trans (congrArg (Host.Outcome.next ∘ t.withUnread) hwt)⟩

/-- A Step's instruction starts with the outcome Ok, whatever the Step before reported (R259). -/
theorem stepEntry_withReport (s : State) (o : StepOutcome) (b : Bool) :
    stepEntry { s with outcome := o, errSeen := b } = { stepEntry s with errSeen := b } := rfl

/-- Settles O52: the Step overwrites the outcome before its instruction, and no instruction reads the record. -/
theorem earlierErrorsAreNeverRead : Obligations.EarlierErrorsAreNeverRead := by
  intro s o b
  by_cases hpc : s.pc.toNat ≤ 0xFFE
  · cases hi : fetched s with
    | none =>
      exact ⟨_, b, step_of_not_fetched hpc hi,
        step_of_not_fetched (s := { s with outcome := o, errSeen := b }) hpc hi⟩
    | some i =>
      rw [step_of_fetched hi, step_of_fetched (s := { s with outcome := o, errSeen := b }) hi, stepEntry_withReport]
      exact exec_withErrSeen i (stepEntry s) b
  · have hpc := Nat.lt_of_not_le hpc
    exact ⟨_, true, step_of_fetch_error hpc,
      step_of_fetch_error (s := { s with outcome := o, errSeen := b }) hpc⟩

end Sys2Proof.Machine
end

section
/-!
PROOFS. The statements about errors and timers (60_exceptions): the causes of each error and the record of them, and
the source's tick loop on the host's clock, of which a Step takes the count.
-/

namespace Sys2Proof.Machine

/-! ### The causes of the errors -/

theorem eq_report_of_reportsOnly {r : Result} {e : StepError} {s : State}
    (h : ∃ t, r = .next t ∧ ReportsOnly e s t) : r = .next (s.report e) := by
  obtain ⟨t, hr, ht, -⟩ := h
  rw [hr, ht]
  rfl

/-- Where R250's table names an error for an instruction, the instruction reports it. -/
theorem exec_of_raises {i : Instr} {s : State} {e : StepError} (h : Raises i s e) :
    exec i s = .next (s.report e) := by
  cases i with
  | ret =>
    obtain ⟨h, rfl⟩ := h
    exact exec_ret_of_empty h
  | call nnn =>
    obtain ⟨h, rfl⟩ := h
    exact exec_call_of_full nnn h
  | drw x y n =>
    obtain ⟨h, rfl⟩ := h
    exact exec_drw_reports x h
  | ldB x =>
    obtain ⟨h, rfl⟩ := h
    exact eq_report_of_reportsOnly (settle_writeBytes_reports (List.cons_ne_nil _ _) (Nat.succ_lt_succ h))
  | stRegs x =>
    obtain ⟨h, rfl⟩ := h
    have hlen : (s.regsUpTo x).length = x.val + 1 := s.length_regsUpTo x
    exact eq_report_of_reportsOnly (settle_writeBytes_reports (List.ne_nil_of_length_eq_add_one hlen) (by omega))
  | ldRegs x =>
    obtain ⟨h, rfl⟩ := h
    exact eq_report_of_reportsOnly (exec_ldRegs_reports x h)
  | skp x =>
    obtain ⟨h, rfl⟩ := h
    exact eq_report_of_reportsOnly (settle_keyNumber_reports s.keyDown h)
  | sknp x =>
    obtain ⟨h, rfl⟩ := h
    exact eq_report_of_reportsOnly (settle_keyNumber_reports (fun k => !s.keyDown k) h)
  | _ => exact h.elim

/-- An instruction that starts with the outcome Ok ends with the error that it raises, if any. -/
theorem outcome_eq_err_iff_raises {i : Instr} {s t : State} (hs : s.outcome = .ok) (ht : exec i s = .next t)
    (e : StepError) : t.outcome = .err e ↔ Raises i s e := by
  constructor
  · intro he
    obtain ⟨u, hu, heff⟩ := exec_effect i s
    cases hu.symm.trans ht
    cases heff with
    | report e' hr =>
      cases he
      exact hr
    | _ => cases hs.symm.trans he
  · intro h
    cases (exec_of_raises h).symm.trans ht
    rfl

theorem fetch_eq_error_iff (s : State) (e : StepError) :
    fetch s = .error e ↔ s.pc.toNat > 0xFFE ∧ e = .addressError s.pc.toNat := by
  by_cases h : s.pc.toNat > 0xFFE
  · simp [fetch_error s h, h, eq_comm]
  · simp [fetch_ok s (Nat.le_of_not_lt h), h]

/-- A Step ends with the error of its fetch, or with that of the instruction fetched. -/
theorem step_outcome_eq_err_iff {s t : State} (h : step s = .next t) (e : StepError) : t.outcome = .err e ↔
    (s.pc.toNat > 0xFFE ∧ e = .addressError s.pc.toNat) ∨
    (∃ i, fetched s = some i ∧ Raises i (stepEntry s) e) := by
  cases stepEffect_of_step h with
  | instr i hi _ =>
    have hpc : ¬s.pc.toNat > 0xFFE := Nat.not_lt.mpr (le_of_fetched hi)
    have hiff := outcome_eq_err_iff_raises rfl ((step_of_fetched hi).symm.trans h) e
    simp [hiff, hi, hpc]
  | noOp hpc hi =>
    have hok : (stepEntry s).outcome = .ok := rfl
    simp [hok, hi, Nat.not_lt.mpr hpc]
  | fetchError hpc =>
    have hi (i : Instr) : fetched s ≠ some i := fun hi => absurd (le_of_fetched hi) (Nat.not_le.mpr hpc)
    simp [hi, hpc, eq_comm]

theorem hostLoad_eq_loadTooLarge_iff (bytes : List Byte) (s : State) :
    (hostLoad bytes s).1 = .loadTooLarge ↔ bytes.length + 0x200 > 4096 := by
  by_cases h : bytes.length ≤ 3584
  · rw [hostLoad_of_fits h]
    exact iff_of_false nofun (by omega)
  · rw [hostLoad_of_too_large (Nat.lt_of_not_le h)]
    exact iff_of_true rfl (by omega)

/-- Settles O34: an instruction's error is in its row of the table, and a Step adds that of the fetch. -/
theorem errorsHaveExactlyTheseCauses : Obligations.ErrorsHaveExactlyTheseCauses := by
  refine ⟨fun i s hs => ?_, fetch_eq_error_iff, fun s => ?_, rfl, rfl, rfl, rfl, hostLoad_eq_loadTooLarge_iff,
    fun _ => ⟨rfl, rfl⟩, fun _ => ⟨rfl, rfl⟩⟩
  · obtain ⟨t, ht, -⟩ := exec_effect i s
    exact ⟨t, ht, outcome_eq_err_iff_raises hs ht⟩
  · obtain ⟨t, ht, -⟩ := step_effect s
    exact ⟨t, ht, step_outcome_eq_err_iff ht⟩

/-! ### The record of the errors -/

/-- The outcome and the fault record after an operation: as they were, or an error and the record set. -/
theorem Effect.outcome_errSeen {i : Instr} {s t : State} (h : Effect i s t) :
    (∃ e, t.outcome = .err e ∧ t.errSeen = true) ∨ (t.outcome = s.outcome ∧ t.errSeen = s.errSeen) := by
  cases h with
  | report e => exact .inl ⟨e, rfl, rfl⟩
  | _ => exact .inr ⟨rfl, rfl⟩

theorem StepEffect.outcome_errSeen {s t : State} (h : StepEffect s t) :
    (∃ e, t.outcome = .err e ∧ t.errSeen = true) ∨ (t.outcome = .ok ∧ t.errSeen = s.errSeen) := by
  cases h with
  | instr i _ ht => exact ht.outcome_errSeen
  | noOp => exact .inr ⟨rfl, rfl⟩
  | fetchError => exact .inl ⟨_, rfl, rfl⟩

/-- Settles O47: the report sets the outcome and the record together, and nothing else in a Step writes the record. -/
theorem errorsStayRecorded : Obligations.ErrorsStayRecorded := by
  intro s t h
  obtain ⟨e, he, hseen⟩ | ⟨hok, hseen⟩ := (stepEffect_of_step h).outcome_errSeen
  · exact ⟨fun _ _ => hseen, fun _ => hseen, fun hok => (nomatch he.symm.trans hok)⟩
  · exact ⟨fun _ he => (nomatch hok.symm.trans he), hseen.trans, fun _ => hseen⟩

/-! ### The tick loop

The count of R266 is the number of rounds that R265's loop makes: none up to one interval, and else one more than
are due after a round. -/

theorem tickCount_eq_zero_iff (e : Int) : tickCount e = 0 ↔ e ≤ Config.tTick := by
  simp only [tickCount, Config.tTick]
  omega

theorem tickCount_eq_iff (e : Int) {k : Nat} (hk : 1 ≤ k) :
    tickCount e = k ↔ k * Config.tTick < e ∧ e ≤ (k + 1) * Config.tTick := by
  simp only [tickCount, Config.tTick]
  omega

theorem tickCount_of_gt {e : Int} (h : e > Config.tTick) : tickCount e = tickCount (e - Config.tTick) + 1 := by
  simp only [tickCount, Config.tTick] at *
  omega

theorem residue_bounds {e : Int} (h : e > 0) :
    0 < e - tickCount e * Config.tTick ∧ e - tickCount e * Config.tTick ≤ Config.tTick := by
  simp only [tickCount, Config.tTick]
  omega

section TickLoop
variable {now : Int} {s : State}

theorem tickLoop_of_le (h : now - s.lastTick ≤ Config.tTick) : ∀ fuel, tickLoop fuel now s = s
  | 0 => rfl
  | _ + 1 => if_neg (Int.not_lt.mpr h)

theorem tickLoop_of_gt (h : now - s.lastTick > Config.tTick) (fuel : Nat) :
    tickLoop (fuel + 1) now s = tickLoop fuel now (tickOnce s) := if_pos h

theorem ticksDue_eq_succ (h : now - s.lastTick > Config.tTick) : s.ticksDue now = (tickOnce s).ticksDue now + 1 := by
  rw [State.ticksDue, State.ticksDue, lastTick_tickOnce, ← sub_sub]
  exact tickCount_of_gt h

/-- The loop with rounds enough is the tick phase by count. -/
theorem tickLoop_eq_tickTimers (fuel : Nat) (h : s.ticksDue now ≤ fuel) :
    tickLoop fuel now s = tickTimers (s.ticksDue now) s := by
  induction fuel generalizing s with
  | zero => rw [Nat.le_zero.mp h, tickTimers_zero]; rfl
  | succ fuel ih =>
    by_cases hle : now - s.lastTick ≤ Config.tTick
    · have hzero : s.ticksDue now = 0 := (tickCount_eq_zero_iff _).mpr hle
      rw [tickLoop_of_le hle, hzero, tickTimers_zero]
    · have hgt := Int.lt_of_not_ge hle
      have hdue := ticksDue_eq_succ hgt
      rw [tickLoop_of_gt hgt, ih (by omega), tickTimers_tickOnce, hdue]

end TickLoop

/-- Settles O22: the closed form is arithmetic, and the loop leaves what that many ticks leave. -/
theorem tickLoopAppliesTheCount : Obligations.TickLoopAppliesTheCount := by
  refine fun now s fuel => ⟨tickCount_eq_zero_iff _, fun k hk => tickCount_eq_iff _ hk, fun hfuel => ?_⟩
  rw [tickLoop_eq_tickTimers fuel hfuel]
  refine ⟨rfl, decay_toNat .., decay_toNat .., lastTick_tickTimers .., fun he => ?_, fun he => ?_⟩
  · rw [lastTick_tickTimers, ← sub_sub]
    exact residue_bounds he
  · have hzero : s.ticksDue now = 0 := (tickCount_eq_zero_iff _).mpr (he.trans (by decide))
    rw [hzero, tickTimers_zero]

/-! ### The Step at the host's clock -/

section CycleTimers
variable {inp : HostInput} {s t : State}

theorem cycle_of_fetched {i : Instr} (hi : fetched s = some i) : cycle inp s = exec i (s.afterInputs inp).skip := by
  rw [cycle_of_fetch_ok inp (le_of_fetched hi), hi]
  rfl

/-- A Step with its inputs given has the effect of the instruction fetched; where there is none, the pc and the
report are all that can differ from what its inputs left. -/
theorem effect_of_cycle (h : cycle inp s = .next t) :
    (∃ i, fetched s = some i ∧ Effect i (s.afterInputs inp).skip t) ∨
      (fetched s = none ∧
        t = { s.afterInputs inp with pc := t.pc, outcome := t.outcome, errSeen := t.errSeen }) := by
  by_cases hpc : s.pc.toNat ≤ 0xFFE
  · cases hi : fetched s with
    | none =>
      rw [cycle_of_fetch_ok inp hpc, hi] at h
      cases h
      exact .inr ⟨rfl, rfl⟩
    | some i =>
      obtain ⟨u, hu, heff⟩ := exec_effect i (s.afterInputs inp).skip
      cases hu.symm.trans ((cycle_of_fetched hi).symm.trans h)
      exact .inl ⟨i, rfl, heff⟩
  · cases (cycle_of_fetch_error inp (Nat.lt_of_not_le hpc)).symm.trans h
    exact .inr ⟨if_neg hpc, rfl⟩

theorem inputs_of_cycle (h : cycle inp s = .next t) :
    t.key = inp.keysIn ∧ t.rnd = inp.rnd ∧ t.tLast = s.tLast + inp.ticks := by
  obtain ⟨i, -, heff⟩ | ⟨-, ht⟩ := effect_of_cycle h
  · obtain ⟨hkey, htLast, -, hrnd, -⟩ := heff.inputs
    exact ⟨hkey, hrnd, htLast⟩
  · exact ⟨congrArg State.key ht, congrArg State.rnd ht, congrArg State.tLast ht⟩

theorem dt_of_cycle (h : cycle inp s = .next t) (hn : ∀ x, fetched s ≠ some (.ldDtVx x)) :
    t.dt = decay s.dt inp.ticks := by
  obtain ⟨i, hi, heff⟩ | ⟨-, ht⟩ := effect_of_cycle h
  · refine heff.dt fun hm => ?_
    obtain ⟨x, rfl⟩ := eq_ldDtVx_of_mnemonic hm
    exact hn x hi
  · exact congrArg State.dt ht

theorem st_of_cycle (h : cycle inp s = .next t) (hn : ∀ x, fetched s ≠ some (.ldStVx x)) :
    t.st = decay s.st inp.ticks := by
  obtain ⟨i, hi, heff⟩ | ⟨-, ht⟩ := effect_of_cycle h
  · refine heff.st fun hm => ?_
    obtain ⟨x, rfl⟩ := eq_ldStVx_of_mnemonic hm
    exact hn x hi
  · exact congrArg State.st ht

theorem dt_of_cycle_ldDtVx {x : Reg} (h : cycle inp s = .next t) (hi : fetched s = some (.ldDtVx x)) :
    t.dt = s.reg x := by
  cases (cycle_of_fetched hi).symm.trans h
  rfl

theorem st_of_cycle_ldStVx {x : Reg} (h : cycle inp s = .next t) (hi : fetched s = some (.ldStVx x)) :
    t.st = s.reg x := by
  cases (cycle_of_fetched hi).symm.trans h
  rfl

end CycleTimers

/-- Settles O58: the loop leaves what the ticks due leave, and the Step takes these ticks as its count. -/
theorem stepAtTheClockTicksAsTheLoop : Obligations.StepAtTheClockTicksAsTheLoop := by
  intro now keysIn rnd s fuel hfuel
  refine ⟨tickLoop_eq_tickTimers fuel hfuel, ?_⟩
  rw [tickLoop_eq_tickTimers fuel hfuel]
  obtain ⟨t, ht⟩ := cycle_next ⟨s.ticksDue now, keysIn, rnd⟩ s
  obtain ⟨hkey, hrnd, htLast⟩ := inputs_of_cycle ht
  have hlast : t.lastTick = (tickTimers (s.ticksDue now) s).lastTick := by
    rw [State.lastTick, State.lastTick, htLast, tickTimers_tLast]
  exact ⟨t, congrArg withReply ht, hlast, hkey, hrnd, dt_of_cycle ht, fun _ => dt_of_cycle_ldDtVx ht,
    st_of_cycle ht, fun _ => st_of_cycle_ldStVx ht⟩

end Sys2Proof.Machine
end
